-- ==== Sys2Proof/Word.lean ====
section
/-! DEFINITION. The cell value type and its range (spec/00_scope.md R6, R10).

A cell value, an operand word and an address are each an `Int`: the spec gives cells as signed integers of `W` bits and
writes all its pseudocode over the integers (R6, R10, R26).  `W` is a parameter of the machine, so the range of a cell
is a predicate (`Fits`) and not part of the type. -/

namespace Sys2Proof

/-- One byte of output or of `write_bytes` (R62, R170). -/
abbrev Byte := BitVec 8

/-- `MIN_W = -2^(W-1)` (R10). -/
def minCell (W : Nat) : Int := -(2 ^ (W - 1) : Nat)

/-- `MAX_W = 2^(W-1) - 1` (R10). -/
def maxCell (W : Nat) : Int := (2 ^ (W - 1) : Nat) - 1

/-- `v` is a W-bit two's-complement value: it lies in `[MIN_W, MAX_W]` (R6, R10). -/
abbrev Fits (W : Nat) (v : Int) : Prop := minCell W ≤ v ∧ v ≤ maxCell W

end Sys2Proof
end

