-- ==== Sys2Proof/Config.lean ====
section
/-! DEFINITION. The parameters of an instance: cell width, capacity, opcode assignment (spec/00_scope.md R6 to R9). -/

namespace Sys2Proof

/-- What construction fixes (R6, R7, R8, R230).  No instruction reads or writes these as data (R20).
`OPC` lists the opcode values of the 29 mnemonics in the listing order of R82: ADD first, HALT last. -/
structure Config where
  /-- Int width in bits (R6). -/
  W : Nat
  /-- Number of cells of the memory array (R7). -/
  CAP : Nat
  /-- The opcode assignment, one value per mnemonic (R8). -/
  OPC : List Int
  deriving DecidableEq, Repr

/-- The requirements on the parameters: `W >= 8`, `CAP >= 1`, and `OPC` an injective map from the 29 mnemonics to
W-bit values (R6, R7, R8, R220). -/
abbrev Config.wf (c : Config) : Prop :=
  8 ≤ c.W ∧ 1 ≤ c.CAP ∧ c.OPC.length = 29 ∧ c.OPC.Nodup ∧ ∀ v ∈ c.OPC, Fits c.W v

/-- The default opcode assignment of R82: 1 to 29 in listing order, 0 left unassigned. -/
def Config.defaultOpcodes : List Int :=
  [1, 2, 3, 4, 5, 6, 7, 8, 9, 10, 11, 12, 13, 14, 15, 16, 17, 18, 19, 20, 21, 22, 23, 24, 25, 26, 27, 28, 29]

/-- The parameters of the instance that `State.reset` is.  DESIGN CHOICE (log entry 1): the spec leaves `W` and `CAP`
open; `W = 32` is the width of the spec's own examples (R6), `CAP = 65536` is this model's pick. -/
def Config.default : Config := { W := 32, CAP := 65536, OPC := Config.defaultOpcodes }

end Sys2Proof
end

