-- ==== Sys2Proof/Machine/Arith.lean ====
section
/-! DEFINITION. Int arithmetic: wrapping to W bits, the truncated quotient, the low byte
(spec/00_scope.md R10, spec/41_arithmetic.md R120, spec/45_output.md R173). -/

namespace Sys2Proof.Machine

/-- `wrap_W(v)`: the unique value of the W-bit signed range that is congruent to `v` modulo `2^W` (R10). -/
def wrap (W : Nat) (v : Int) : Int := Int.bmod v (2 ^ W)

/-- `trunc(x / y)`: the exact quotient rounded toward zero (R120, R124). -/
def truncDiv (x y : Int) : Int := Int.tdiv x y

/-- `bits[7:0]` of a cell value (R10, R173, R174). -/
def lowByte (v : Int) : Byte := BitVec.ofInt 8 v

/-- `sext_8(b)`: the cell value of a byte (R10, R62). -/
def byteCell (b : Byte) : Int := b.toInt

end Sys2Proof.Machine
end

