-- ==== Sys2Proof/Syntax.lean ====
section
/-! DEFINITION. The instructions: the 29 mnemonics of spec/opcode_table.json and their operand words
(spec/30_encoding.md R81, R84). -/

namespace Sys2Proof

/-- The 29 mnemonics, in the listing order of R82. -/
inductive Mnemonic where
  | add | sub | mul | div
  | move | load | store | storep
  | jlt | jle | jge | jgt | jmp
  | rjlt | rjle | rjge | rjgt | rjmp
  | incr | decr
  | print | printc | prints
  | push | pushp | pop | popp
  | mode | halt
  deriving DecidableEq, Repr

/-- A decoded instruction: its mnemonic and its operand words as signed values (R84, R85).  The two unused words of
JMP and RJMP are kept: they are fetched, may hold any value, and are never used (R87). -/
inductive Instr where
  | add (dest src : Int)
  | sub (dest src : Int)
  | mul (dest src : Int)
  | div (dest src : Int)
  | move (dest src : Int)
  | load (dest imm : Int)
  | store (ptr src : Int)
  | storep (destPtr srcPtr : Int)
  | jlt (a b target : Int)
  | jle (a b target : Int)
  | jge (a b target : Int)
  | jgt (a b target : Int)
  | jmp (unused1 unused2 target : Int)
  | rjlt (a b offset : Int)
  | rjle (a b offset : Int)
  | rjge (a b offset : Int)
  | rjgt (a b offset : Int)
  | rjmp (unused1 unused2 offset : Int)
  | incr (addr : Int)
  | decr (addr : Int)
  | print (addr : Int)
  | printc (addr : Int)
  | prints (addr : Int)
  | push (addr : Int)
  | pushp (ptr : Int)
  | pop (addr : Int)
  | popp (ptr : Int)
  | mode (imm : Int)
  | halt
  deriving DecidableEq, Repr

end Sys2Proof
end

