-- ==== Sys2Proof/Decode.lean ====
section
/-! DEFINITION. Opcode values, instruction widths, the decoder and, after it, the encoder (spec/30_encoding.md). -/

namespace Sys2Proof

/-- The mnemonics in the listing order of R82. -/
def Mnemonic.all : List Mnemonic :=
  [.add, .sub, .mul, .div, .move, .load, .store, .storep,
    .jlt, .jle, .jge, .jgt, .jmp, .rjlt, .rjle, .rjge, .rjgt, .rjmp,
    .incr, .decr, .print, .printc, .prints, .push, .pushp, .pop, .popp, .mode, .halt]

/-- The place of a mnemonic in the listing order of R82, counted from 0. -/
def Mnemonic.index : Mnemonic → Nat
  | .add => 0 | .sub => 1 | .mul => 2 | .div => 3
  | .move => 4 | .load => 5 | .store => 6 | .storep => 7
  | .jlt => 8 | .jle => 9 | .jge => 10 | .jgt => 11 | .jmp => 12
  | .rjlt => 13 | .rjle => 14 | .rjge => 15 | .rjgt => 16 | .rjmp => 17
  | .incr => 18 | .decr => 19
  | .print => 20 | .printc => 21 | .prints => 22
  | .push => 23 | .pushp => 24 | .pop => 25 | .popp => 26
  | .mode => 27 | .halt => 28

/-- The width of an instruction: its number of words, the opcode word included (R81).  It depends on the opcode
alone (R88). -/
def Mnemonic.width : Mnemonic → Nat
  | .halt => 1
  | .incr | .decr | .print | .printc | .prints | .push | .pushp | .pop | .popp | .mode => 2
  | .add | .sub | .mul | .div | .move | .load | .store | .storep => 3
  | .jlt | .jle | .jge | .jgt | .jmp | .rjlt | .rjle | .rjge | .rjgt | .rjmp => 4

/-- `OPC(m)`: the opcode value of a mnemonic (R8, R82). -/
def Config.opcodeOf (c : Config) (m : Mnemonic) : Int := c.OPC.getD m.index 0

/-- `OPC^-1(w0)`: the mnemonic whose opcode value is the whole word `w0`, if there is one (R83). -/
def Config.mnemonicOf (c : Config) (w0 : Int) : Option Mnemonic :=
  Mnemonic.all.find? (fun m => c.opcodeOf m == w0)

/-- The instruction of a mnemonic and the words that follow its opcode: word `w1` is the first of `ws` (R84, R85).
Only the first `width - 1` words are used; the callers give at least that many. -/
def Mnemonic.instr (m : Mnemonic) (ws : List Int) : Instr :=
  let w1 := ws.getD 0 0
  let w2 := ws.getD 1 0
  let w3 := ws.getD 2 0
  match m with
  | .add => .add w1 w2
  | .sub => .sub w1 w2
  | .mul => .mul w1 w2
  | .div => .div w1 w2
  | .move => .move w1 w2
  | .load => .load w1 w2
  | .store => .store w1 w2
  | .storep => .storep w1 w2
  | .jlt => .jlt w1 w2 w3
  | .jle => .jle w1 w2 w3
  | .jge => .jge w1 w2 w3
  | .jgt => .jgt w1 w2 w3
  | .jmp => .jmp w1 w2 w3
  | .rjlt => .rjlt w1 w2 w3
  | .rjle => .rjle w1 w2 w3
  | .rjge => .rjge w1 w2 w3
  | .rjgt => .rjgt w1 w2 w3
  | .rjmp => .rjmp w1 w2 w3
  | .incr => .incr w1
  | .decr => .decr w1
  | .print => .print w1
  | .printc => .printc w1
  | .prints => .prints w1
  | .push => .push w1
  | .pushp => .pushp w1
  | .pop => .pop w1
  | .popp => .popp w1
  | .mode => .mode w1
  | .halt => .halt

/-- Why a sequence of words is no instruction. -/
inductive DecodeError where
  /-- There are fewer words than the instruction needs; the opcode word itself counts as one. -/
  | truncated
  /-- The opcode word is outside the image of `OPC` (R83, R86). -/
  | illegalOpcode (w0 : Int)
  deriving DecidableEq, Repr

/-- Reads one instruction from the front of a sequence of words and returns it with the words left over
(R80, R81, R83, R85).  The machine's own fetch reads the words one at a time (`Machine.fetchInstr`) with the same
three parts: `mnemonicOf`, `width`, `instr`. -/
def decode (c : Config) : List Int → Except DecodeError (Instr × List Int)
  | [] => .error .truncated
  | w0 :: rest =>
    match c.mnemonicOf w0 with
    | none => .error (.illegalOpcode w0)
    | some m =>
      if rest.length < m.width - 1 then .error .truncated
      else .ok (m.instr rest, rest.drop (m.width - 1))

/-- The mnemonic of an instruction. -/
def Instr.mnemonic : Instr → Mnemonic
  | .add _ _ => .add
  | .sub _ _ => .sub
  | .mul _ _ => .mul
  | .div _ _ => .div
  | .move _ _ => .move
  | .load _ _ => .load
  | .store _ _ => .store
  | .storep _ _ => .storep
  | .jlt _ _ _ => .jlt
  | .jle _ _ _ => .jle
  | .jge _ _ _ => .jge
  | .jgt _ _ _ => .jgt
  | .jmp _ _ _ => .jmp
  | .rjlt _ _ _ => .rjlt
  | .rjle _ _ _ => .rjle
  | .rjge _ _ _ => .rjge
  | .rjgt _ _ _ => .rjgt
  | .rjmp _ _ _ => .rjmp
  | .incr _ => .incr
  | .decr _ => .decr
  | .print _ => .print
  | .printc _ => .printc
  | .prints _ => .prints
  | .push _ => .push
  | .pushp _ => .pushp
  | .pop _ => .pop
  | .popp _ => .popp
  | .mode _ => .mode
  | .halt => .halt

/-- The operand words `w1, w2, w3` of an instruction, in word order (R89, R90). -/
def Instr.operands : Instr → List Int
  | .add dest src | .sub dest src | .mul dest src | .div dest src | .move dest src => [dest, src]
  | .load dest imm => [dest, imm]
  | .store ptr src => [ptr, src]
  | .storep destPtr srcPtr => [destPtr, srcPtr]
  | .jlt a b target | .jle a b target | .jge a b target | .jgt a b target => [a, b, target]
  | .jmp unused1 unused2 target => [unused1, unused2, target]
  | .rjlt a b offset | .rjle a b offset | .rjge a b offset | .rjgt a b offset => [a, b, offset]
  | .rjmp unused1 unused2 offset => [unused1, unused2, offset]
  | .incr addr | .decr addr | .print addr | .printc addr | .prints addr | .push addr | .pop addr => [addr]
  | .pushp ptr | .popp ptr => [ptr]
  | .mode imm => [imm]
  | .halt => []

/-- The words of an instruction: `[OPC(m), o1, ..., ok]` (R90). -/
def encode (c : Config) (i : Instr) : List Int := c.opcodeOf i.mnemonic :: i.operands

/-- The words of an instruction given as one number: bit 0 is the least significant bit of the first word, a later
word's bits count on from it, each word is `W` bits wide and read as a signed value (R80, R85), and every bit from
`nbits` up is 0.  Four words, the longest instruction (R81). -/
def tableWords (W nbits w : Nat) : List Int :=
  (List.range 4).map fun k => Machine.wrap W (((w % 2 ^ nbits) / 2 ^ (W * k) % 2 ^ W : Nat) : Int)

/-- The instruction the decoder reads from the word `w` of a row of spec/opcode_table.json, under the parameters of
`Config.default` (log entries 1 and 6). -/
def decodeTableWord (nbits w : Nat) : Option Instr :=
  match decode Config.default (tableWords Config.default.W nbits w) with
  | .ok (i, _) => some i
  | .error _ => none

end Sys2Proof
end

