-- ==== Sys2Proof/Machine/State.lean ====
section
/-! DEFINITION. The state of the engine as plain data, its reset value, and the reasons a step can stop
(spec/10_state.md R20 to R36, spec/60_exceptions.md R200). -/

namespace Sys2Proof.Machine

/-- The seven kinds of fatal condition (R200).  A step that raises one takes the entry R208 describes: it answers a
next state whose status records the kind.  So these names stand in `Status.faulted`, and no step or command answers
`Host.Outcome.fault` (log entry 3; safe). -/
inductive Fault where
  /-- A `Resolve(a)` with `a` or `a * MODE` outside `[0, CAP)`, or a PRINTS scan that reaches `CAP` (R53, R174, R201).
  Raised by the fetch of every instruction and by every data resolution.  Safe. -/
  | invalidAddress
  /-- A loader write whose range leaves `[0, CAP)` (R60, R61, R202).  Raised by the loader commands.  Safe. -/
  | outOfCapacity
  /-- A push with `SP < SP_LIMIT` (R181, R203).  Raised by PUSH and PUSHP.  Safe. -/
  | stackOverflow
  /-- A pop with `SP >= CAP` (R182, R204).  Raised by POP and POPP.  Safe. -/
  | stackUnderflow
  /-- An opcode word outside the image of `OPC` (R104, R205).  Raised by the decode of every step.  Safe. -/
  | illegalInstruction
  /-- DIV with divisor 0, or `MIN_W / -1` (R124, R206).  Raised by DIV.  Safe. -/
  | arithmetic
  /-- PRINTC or PRINTS with `W` other than 8 (R171, R207).  Raised by PRINTC and PRINTS.  Safe. -/
  | widthPrecondition
  deriving DecidableEq, Repr

/-- What the spec refuses: the model gives it no meaning (R220, R236).  Every refusal errs toward unprovable: safe. -/
inductive Refusal where
  /-- An instruction whose meaning is not written; no arm of `exec` answers it.  Safe. -/
  | notModelled (mnemonic : String)
  /-- A host command while the status is Running (R236, 93 I7).  Raised by `command`.  Safe. -/
  | commandWhileRunning
  /-- `write_bytes` with `W` other than 8 (R62, 93 I10).  Raised by `command`.  Safe. -/
  | writeBytesNeedsByteCells
  /-- A loader value that does not fit in W bits (R60, R61, 93 I13).  Raised by `command`.  Safe. -/
  | loaderValueTooWide
  /-- Construction with parameters outside R6, R7, R8 (R220).  Raised by `construct`.  Safe. -/
  | badParameters
  deriving DecidableEq, Repr

/-- The run status, with the diagnostic record `(kind, pc, sp)` once faulted (R31, R32). -/
inductive Status where
  /-- Constructed, never started. -/
  | idle
  /-- Inside `start`. -/
  | running
  /-- The last run ended by executing HALT. -/
  | halted
  /-- A fatal condition occurred; the values of PC and SP at the fault are recorded. -/
  | faulted (kind : Fault) (pc sp : Int)
  deriving DecidableEq, Repr

/-- One record of the output channel: `Out(kind, addr, payload)` (R170).  `addr` is the logical operand word. -/
inductive OutRecord where
  /-- PRINT: the cell's value. -/
  | int (addr : Int) (payload : Int)
  /-- PRINTC: one byte. -/
  | char (addr : Int) (payload : Byte)
  /-- PRINTS: the bytes before the terminating zero. -/
  | str (addr : Int) (payload : List Byte)
  deriving DecidableEq, Repr

/-- The commands of the host command interface, construction apart (R36, R60 to R62, R232 to R234). -/
inductive Command where
  /-- `write_cell(a, v)` (R60). -/
  | writeCell (a : Int) (v : Int)
  /-- `write_cells(a, s)` (R61). -/
  | writeCells (a : Int) (s : List Int)
  /-- `write_bytes(a, b)` (R62). -/
  | writeBytes (a : Int) (b : List Byte)
  /-- `set_pc(a)` (R232). -/
  | setPc (a : Int)
  /-- `set_sp(a)` (R233). -/
  | setSp (a : Int)
  /-- `start()` (R234). -/
  | start
  deriving DecidableEq, Repr

/-- The memory array as the list of its non-zero cells: physical index and value, indices strictly rising, no value 0,
which is what an unlisted cell reads as (R30, R35, R67).  The canonical form is `Memory.wf` (Machine/Ops.lean).  The
smallest addressable unit is a whole cell (R51), so an entry holds a cell and not a byte (log entry 2). -/
abbrev Memory := List (Nat × Int)

/-- The state of an instance.  `pc`, `sp` and `spLimit` are integers and never wrap (R26); `mode` is a W-bit value. -/
structure State where
  /-- The parameters fixed at construction (R20: configuration, not state; held here so that one `State` type serves
  every instance, log entry 1). -/
  cfg : Config
  /-- The memory array `M` (R30). -/
  mem : Memory
  /-- `PC`: the logical address of the next opcode word (R22). -/
  pc : Int
  /-- `SP`: the logical address of the next free stack cell (R23). -/
  sp : Int
  /-- `SP_LIMIT`: the lowest value of `SP` at which a push is allowed (R24). -/
  spLimit : Int
  /-- `MODE`: the address scale factor (R25). -/
  mode : Int
  /-- The run status and the diagnostic record (R31, R32). -/
  status : Status
  /-- The output log, oldest record first (R33). -/
  out : List OutRecord
  /-- The host's commands not yet taken, next one first.  The model's own field: it is the input of the host command
  interface (R36), taken one command a step whenever no run is active (log entry 4). -/
  commands : List Command
  deriving DecidableEq, Repr

/-- The state right after construction with the parameters `c`, with nothing yet asked by the host (R35, R230). -/
def State.initial (c : Config) : State :=
  { cfg := c, mem := [], pc := 0, sp := 0, spLimit := 0, mode := 1, status := .idle, out := [], commands := [] }

/-- The state after reset: the instance constructed with `Config.default` (R35, R230; log entry 1).  There is no other
reset (R231). -/
def State.reset : State := State.initial Config.default

/-- The outcome of a step of this machine. -/
abbrev Outcome := Host.Outcome State Fault Refusal

end Sys2Proof.Machine
end

