-- ==== Sys2Proof/Machine/Ops.lean ====
section
/-! DEFINITION. The named operations over memory and registers, the address resolver, fault entry, and the fetch of an
instruction (spec/20_memory.md, spec/40_dispatch.md, spec/60_exceptions.md R208). -/

namespace Sys2Proof.Machine

/-! ## The memory array -/

/-- The canonical form of memory: indices strictly rising, no entry 0. -/
abbrev Memory.wf (m : Memory) : Prop :=
  m.Pairwise (fun x y => x.1 < y.1) ∧ ∀ e ∈ m, e.2 ≠ 0

/-- Every listed cell lies inside the array and holds a W-bit value (R30). -/
abbrev Memory.inRange (c : Config) (m : Memory) : Prop :=
  ∀ e ∈ m, e.1 < c.CAP ∧ Fits c.W e.2

/-- `M[p]`: a cell no one has written reads 0 (R35, R67). -/
def Memory.read : Memory → Nat → Int
  | [], _ => 0
  | (q, v) :: m, p => if p = q then v else Memory.read m p

/-- `M[p] <- v`, keeping the canonical form: writing 0 removes the entry. -/
def Memory.write : Memory → Nat → Int → Memory
  | [], p, v => if v = 0 then [] else [(p, v)]
  | (q, w) :: m, p, v =>
    if p < q then (if v = 0 then (q, w) :: m else (p, v) :: (q, w) :: m)
    else if p = q then (if v = 0 then m else (p, v) :: m)
    else (q, w) :: Memory.write m p v

/-- `M[p], M[p+1], ... <- s`: the cells of `s` at consecutive physical indices (R61). -/
def Memory.writeAll (m : Memory) (p : Nat) : List Int → Memory
  | [] => m
  | v :: s => Memory.writeAll (m.write p v) (p + 1) s

/-! ## Reading and writing the state -/

/-- `M[p]` (R11). -/
def State.cell (s : State) (p : Nat) : Int := s.mem.read p

/-- `M[p] <- v` (R11). -/
def State.setCell (s : State) (p : Nat) (v : Int) : State := { s with mem := s.mem.write p v }

/-- `PC <- a` (R11). -/
def State.setPc (s : State) (a : Int) : State := { s with pc := a }

/-- `SP <- a` (R11). -/
def State.setSp (s : State) (a : Int) : State := { s with sp := a }

/-- `MODE <- k` (R11). -/
def State.setMode (s : State) (k : Int) : State := { s with mode := k }

/-- `status <- x` (R31). -/
def State.setStatus (s : State) (x : Status) : State := { s with status := x }

/-- `emit`: one record appended to the output log (R12, R170). -/
def State.emit (s : State) (r : OutRecord) : State := { s with out := s.out ++ [r] }

/-- Sequential flow: `PC <- PC_before + n` (R106). -/
def State.advance (s : State) (n : Nat) : State := s.setPc (s.pc + n)

/-! ## Fault entry -/

/-- `raise K`: the status records the kind and the values of PC and SP; what is already written stays written, and
nothing else changes (R12, R208).  There is no handler and no return from it (R208, R209). -/
def State.faultWith (s : State) (k : Fault) : State := s.setStatus (.faulted k s.pc s.sp)

/-- A step that ends by raising `k` in the state `s`. -/
def raise (k : Fault) (s : State) : Outcome := .next (s.faultWith k)

/-! ## The Addressing Resolver -/

/-- `Resolve(a)`: the physical index `a * MODE` when both `a` and `a * MODE` lie in `[0, CAP)`, otherwise none, which
is InvalidAddress (R53). -/
def State.resolve (s : State) (a : Int) : Option Nat :=
  if 0 ≤ a ∧ a < s.cfg.CAP then
    if 0 ≤ a * s.mode ∧ a * s.mode < s.cfg.CAP then some (a * s.mode).toNat else none
  else none

/-- `p := Resolve(a)`, then the rest of the rule; a failing resolution ends the instruction with InvalidAddress in
the state `s` it has reached (R53, R107). -/
def resolving (s : State) (a : Int) (rest : Nat → Outcome) : Outcome :=
  match s.resolve a with
  | none => raise .invalidAddress s
  | some p => rest p

/-! ## Fetch and decode -/

/-- `Fetch(k)`: the word `k` places after the opcode, through the resolver; none is InvalidAddress (R101). -/
def State.fetch (s : State) (k : Nat) : Option Int := (s.resolve (s.pc + k)).map s.cell

/-- The operand words `Fetch(k), ..., Fetch(k + n - 1)`, in increasing order; none when one of the fetches fails
(R105). -/
def State.fetchWords (s : State) : (n k : Nat) → Option (List Int)
  | 0, _ => some []
  | n + 1, k =>
    match s.fetch k with
    | none => none
    | some w =>
      match s.fetchWords n (k + 1) with
      | none => none
      | some ws => some (w :: ws)

/-- Phases 1 to 3 of the step: fetch the opcode, decode it, fetch the operand words; or the fault this raises
(R102 to R105, R212 items 1 to 3). -/
def fetchInstr (s : State) : Except Fault Instr :=
  match s.fetch 0 with
  | none => .error .invalidAddress
  | some w0 =>
    match s.cfg.mnemonicOf w0 with
    | none => .error .illegalInstruction
    | some m =>
      match s.fetchWords (m.width - 1) 1 with
      | none => .error .invalidAddress
      | some ws => .ok (m.instr ws)

/-- Writes `ws` where `Fetch(k), Fetch(k + 1), ...` read; a word whose address does not resolve is left out.  Used by
`State.withFetchWord` alone: no instruction does this. -/
def State.placeWords (s : State) : (k : Nat) → List Int → State
  | _, [] => s
  | k, w :: ws =>
    match s.resolve (s.pc + k) with
    | none => s.placeWords (k + 1) ws
    | some p => (s.setCell p w).placeWords (k + 1) ws

end Sys2Proof.Machine
end

