-- ==== Sys2Proof/Machine/Operands.lean ====
section
/-! DEFINITION. The operand forms (spec/30_encoding.md R84, R85; spec/20_memory.md R52, R55).  An immediate, a target
and an offset are the operand word itself (R85) and need no operation. -/

namespace Sys2Proof.Machine

/-- An address operand, depth 1: the rest of the rule gets the physical index the operand word resolves to (R84). -/
def withAddr (s : State) (w : Int) (rest : Nat → Outcome) : Outcome := resolving s w rest

/-- A pointer operand, depth 2: the value of the cell the operand word names is resolved in turn (R55, R84). -/
def withPtr (s : State) (w : Int) (rest : Nat → Outcome) : Outcome :=
  resolving s w fun r => resolving s (s.cell r) rest

/-- The stack access: the rest of the rule gets the physical index `SP` resolves to (R52, R180). -/
def withStackTop (s : State) (rest : Nat → Outcome) : Outcome := resolving s s.sp rest

end Sys2Proof.Machine
end

