-- ==== Sys2Proof/Machine/Arithmetic.lean ====
section
/-! DEFINITION. ADD, SUB, MUL, DIV (spec/41_arithmetic.md). -/

namespace Sys2Proof.Machine

/-- The shape ADD, SUB and MUL share: `cell(dest) <- wrap_W(cell(dest) <op> cell(src))`, both cells read before the
write (R120 to R123). -/
def wrappingOp (op : Int → Int → Int) (dest src : Int) (s : State) : Outcome :=
  withAddr s dest fun d =>
  withAddr s src fun e =>
  .next ((s.setCell d (wrap s.cfg.W (op (s.cell d) (s.cell e)))).advance 3)

/-- ADD (R121). -/
def execAdd (dest src : Int) (s : State) : Outcome := wrappingOp (fun x y => x + y) dest src s

/-- SUB (R122). -/
def execSub (dest src : Int) (s : State) : Outcome := wrappingOp (fun x y => x - y) dest src s

/-- MUL (R123). -/
def execMul (dest src : Int) (s : State) : Outcome := wrappingOp (fun x y => x * y) dest src s

/-- DIV (R124): both operands are resolved first, then the two corners raise Arithmetic. -/
def execDiv (dest src : Int) (s : State) : Outcome :=
  withAddr s dest fun d =>
  withAddr s src fun e =>
  if s.cell e = 0 then raise .arithmetic s
  else if s.cell d = minCell s.cfg.W ∧ s.cell e = -1 then raise .arithmetic s
  else .next ((s.setCell d (truncDiv (s.cell d) (s.cell e))).advance 3)

end Sys2Proof.Machine
end

