-- ==== Sys2Proof/Machine/DataMovement.lean ====
section
/-! DEFINITION. MOVE, LOAD, STORE, STOREP (spec/42_data_movement.md). -/

namespace Sys2Proof.Machine

/-- MOVE (R130). -/
def execMove (dest src : Int) (s : State) : Outcome :=
  withAddr s dest fun d =>
  withAddr s src fun e =>
  .next ((s.setCell d (s.cell e)).advance 3)

/-- LOAD (R131): the immediate is stored unchanged and never resolved. -/
def execLoad (dest imm : Int) (s : State) : Outcome :=
  withAddr s dest fun d =>
  .next ((s.setCell d imm).advance 3)

/-- STORE (R132). -/
def execStore (ptr src : Int) (s : State) : Outcome :=
  withPtr s ptr fun d =>
  withAddr s src fun e =>
  .next ((s.setCell d (s.cell e)).advance 3)

/-- STOREP (R133). -/
def execStorep (destPtr srcPtr : Int) (s : State) : Outcome :=
  withPtr s destPtr fun d =>
  withPtr s srcPtr fun e =>
  .next ((s.setCell d (s.cell e)).advance 3)

end Sys2Proof.Machine
end

