-- ==== Sys2Proof/Machine/IncrDecr.lean ====
section
/-! DEFINITION. INCR, DECR (spec/44_incr_decr.md). -/

namespace Sys2Proof.Machine

/-- INCR (R160). -/
def execIncr (addr : Int) (s : State) : Outcome :=
  withAddr s addr fun d =>
  .next ((s.setCell d (wrap s.cfg.W (s.cell d + 1))).advance 2)

/-- DECR (R161). -/
def execDecr (addr : Int) (s : State) : Outcome :=
  withAddr s addr fun d =>
  .next ((s.setCell d (wrap s.cfg.W (s.cell d - 1))).advance 2)

end Sys2Proof.Machine
end

