-- ==== Sys2Proof/Machine/Flags.lean ====
section
/-! DEFINITION. The engine has no flags (spec/10_state.md R28): a comparison jump compares two cells and keeps no
result.  What other machines compute into flags is here the four comparisons of spec/43_jumps.md R140. -/

namespace Sys2Proof.Machine

/-- The four comparisons (R140). -/
inductive Cond where
  | lt | le | ge | gt
  deriving DecidableEq, Repr

/-- The comparison of two cells as signed integers (R140). -/
def Cond.holds : Cond → Int → Int → Bool
  | .lt, x, y => decide (x < y)
  | .le, x, y => decide (x ≤ y)
  | .ge, x, y => decide (x ≥ y)
  | .gt, x, y => decide (x > y)

end Sys2Proof.Machine
end

