-- ==== Sys2Proof/Machine/Jumps.lean ====
section
/-! DEFINITION. The comparison jumps, JMP, and their relative forms (spec/43_jumps.md). -/

namespace Sys2Proof.Machine

/-- The shape the eight comparison jumps share: cell `a` is resolved before cell `b`; `PC` takes the target when the
comparison holds and moves past the four words when it does not (R140, R144).  The target is not checked (R141). -/
def jumpIf (c : Cond) (a b : Int) (target : Int) (s : State) : Outcome :=
  withAddr s a fun p =>
  withAddr s b fun q =>
  .next (if c.holds (s.cell p) (s.cell q) then s.setPc target else s.advance 4)

/-- JLT (R144). -/
def execJlt (a b target : Int) (s : State) : Outcome := jumpIf .lt a b target s

/-- JLE (R145). -/
def execJle (a b target : Int) (s : State) : Outcome := jumpIf .le a b target s

/-- JGE (R146). -/
def execJge (a b target : Int) (s : State) : Outcome := jumpIf .ge a b target s

/-- JGT (R147). -/
def execJgt (a b target : Int) (s : State) : Outcome := jumpIf .gt a b target s

/-- JMP (R148): the unused words are never resolved (R87). -/
def execJmp (_unused1 _unused2 target : Int) (s : State) : Outcome := .next (s.setPc target)

/-- RJLT (R149): the offset counts from the jump's own opcode word (R142). -/
def execRjlt (a b offset : Int) (s : State) : Outcome := jumpIf .lt a b (s.pc + offset) s

/-- RJLE (R150). -/
def execRjle (a b offset : Int) (s : State) : Outcome := jumpIf .le a b (s.pc + offset) s

/-- RJGE (R151). -/
def execRjge (a b offset : Int) (s : State) : Outcome := jumpIf .ge a b (s.pc + offset) s

/-- RJGT (R152). -/
def execRjgt (a b offset : Int) (s : State) : Outcome := jumpIf .gt a b (s.pc + offset) s

/-- RJMP (R153): the unused words are never resolved (R87). -/
def execRjmp (_unused1 _unused2 offset : Int) (s : State) : Outcome := .next (s.setPc (s.pc + offset))

end Sys2Proof.Machine
end

