-- ==== Sys2Proof/Machine/Output.lean ====
section
/-! DEFINITION. PRINT, PRINTC, PRINTS, and the text line of an output record (spec/45_output.md). -/

namespace Sys2Proof.Machine

/-- PRINT (R172): the record carries the logical operand word, not the physical index (R170). -/
def execPrint (addr : Int) (s : State) : Outcome :=
  withAddr s addr fun p =>
  .next ((s.emit (.int addr (s.cell p))).advance 2)

/-- PRINTC (R173): the width precondition comes before the resolution (R171, R212). -/
def execPrintc (addr : Int) (s : State) : Outcome :=
  if s.cfg.W ≠ 8 then raise .widthPrecondition s
  else
    withAddr s addr fun p =>
    .next ((s.emit (.char addr (lowByte (s.cell p)))).advance 2)

/-- The string scan of R174 from physical index `p`, where `n` is the number of cells left up to `CAP`: the bytes
before the first zero cell, or none when the scan reaches `CAP`.  The indices are physical and are not resolved
again. -/
def Memory.scanString (m : Memory) : (n p : Nat) → Option (List Byte)
  | 0, _ => none
  | n + 1, p =>
    if m.read p = 0 then some []
    else (Memory.scanString m n (p + 1)).map (lowByte (m.read p) :: ·)

/-- PRINTS (R174). -/
def execPrints (addr : Int) (s : State) : Outcome :=
  if s.cfg.W ≠ 8 then raise .widthPrecondition s
  else
    withAddr s addr fun p =>
    match s.mem.scanString (s.cfg.CAP - p) p with
    | none => raise .invalidAddress s
    | some bytes => .next ((s.emit (.str addr bytes)).advance 2)

/-- The ASCII bytes of a string of the model's own text. -/
def asciiBytes (t : List Char) : List Byte := t.map fun c => BitVec.ofNat 8 c.toNat

/-- `dec(n)`: the decimal numeral of `n`, a leading `-` if negative, no leading zeros, no `+` (R170). -/
def decimal (n : Int) : List Byte :=
  if n < 0 then asciiBytes ('-' :: Nat.toDigits 10 n.natAbs) else asciiBytes (Nat.toDigits 10 n.natAbs)

/-- The logical address an output record carries (R170). -/
def OutRecord.addr : OutRecord → Int
  | .int a _ | .char a _ | .str a _ => a

/-- The `value` part of a record's text line (R170). -/
def OutRecord.valueBytes : OutRecord → List Byte
  | .int _ v => decimal v
  | .char _ b => [b]
  | .str _ bs => bs

/-- The text line the host renders a record as: the bytes of `"[" ++ dec(addr) ++ "] " ++ value ++ "\n"` (R170). -/
def OutRecord.line (r : OutRecord) : List Byte :=
  asciiBytes ['['] ++ decimal r.addr ++ asciiBytes [']', ' '] ++ r.valueBytes ++ asciiBytes ['\n']

end Sys2Proof.Machine
end

