-- ==== Sys2Proof/Machine/Stack.lean ====
section
/-! DEFINITION. PUSH, PUSHP, POP, POPP (spec/46_stack.md). -/

namespace Sys2Proof.Machine

/-- What PUSH and PUSHP do once the source value is read: write it at `SP`, then decrement `SP` (R183, R184). -/
def pushValue (v : Int) (s : State) : Outcome :=
  withStackTop s fun t =>
  .next (((s.setCell t v).setSp (s.sp - 1)).advance 2)

/-- PUSH (R183): the push check precedes every other effect (R181). -/
def execPush (addr : Int) (s : State) : Outcome :=
  if s.sp < s.spLimit then raise .stackOverflow s
  else withAddr s addr fun p => pushValue (s.cell p) s

/-- PUSHP (R184). -/
def execPushp (ptr : Int) (s : State) : Outcome :=
  if s.sp < s.spLimit then raise .stackOverflow s
  else withPtr s ptr fun p => pushValue (s.cell p) s

/-- POP (R185): the pop check precedes every other effect (R182); the increment of `SP` precedes the accesses and
stays when one of them faults (R107). -/
def execPop (addr : Int) (s : State) : Outcome :=
  if s.sp ≥ s.cfg.CAP then raise .stackUnderflow s
  else
    let s1 := s.setSp (s.sp + 1)
    withStackTop s1 fun t =>
    withAddr s1 addr fun d =>
    .next ((s1.setCell d (s1.cell t)).advance 2)

/-- POPP (R186): the pointer is read after the stack value. -/
def execPopp (ptr : Int) (s : State) : Outcome :=
  if s.sp ≥ s.cfg.CAP then raise .stackUnderflow s
  else
    let s1 := s.setSp (s.sp + 1)
    withStackTop s1 fun t =>
    withPtr s1 ptr fun d =>
    .next ((s1.setCell d (s1.cell t)).advance 2)

end Sys2Proof.Machine
end

