-- ==== Sys2Proof/Machine/System.lean ====
section
/-! DEFINITION. MODE, HALT (spec/47_system.md). -/

namespace Sys2Proof.Machine

/-- MODE (R190): the operand is the new scale factor and is not resolved. -/
def execMode (imm : Int) (s : State) : Outcome := .next ((s.setMode imm).advance 2)

/-- HALT (R191): `PC` stays at the HALT word. -/
def execHalt (s : State) : Outcome := .next (s.setStatus .halted)

end Sys2Proof.Machine
end

