-- ==== Sys2Proof/Machine/Dispatch.lean ====
section
/-! DEFINITION. The execute phase: one arm per instruction (spec/40_dispatch.md R102). -/

namespace Sys2Proof.Machine

/-- The execute phase of the step of one instruction, reading `PC` as `PC_before` (R102, R106). -/
def exec (i : Instr) (s : State) : Host.Outcome State Fault Refusal :=
  match i with
  | .add dest src => Sys2Proof.Machine.execAdd dest src s
  | .sub dest src => Sys2Proof.Machine.execSub dest src s
  | .mul dest src => Sys2Proof.Machine.execMul dest src s
  | .div dest src => Sys2Proof.Machine.execDiv dest src s
  | .move dest src => Sys2Proof.Machine.execMove dest src s
  | .load dest imm => Sys2Proof.Machine.execLoad dest imm s
  | .store ptr src => Sys2Proof.Machine.execStore ptr src s
  | .storep destPtr srcPtr => Sys2Proof.Machine.execStorep destPtr srcPtr s
  | .jlt a b target => Sys2Proof.Machine.execJlt a b target s
  | .jle a b target => Sys2Proof.Machine.execJle a b target s
  | .jge a b target => Sys2Proof.Machine.execJge a b target s
  | .jgt a b target => Sys2Proof.Machine.execJgt a b target s
  | .jmp unused1 unused2 target => Sys2Proof.Machine.execJmp unused1 unused2 target s
  | .rjlt a b offset => Sys2Proof.Machine.execRjlt a b offset s
  | .rjle a b offset => Sys2Proof.Machine.execRjle a b offset s
  | .rjge a b offset => Sys2Proof.Machine.execRjge a b offset s
  | .rjgt a b offset => Sys2Proof.Machine.execRjgt a b offset s
  | .rjmp unused1 unused2 offset => Sys2Proof.Machine.execRjmp unused1 unused2 offset s
  | .incr addr => Sys2Proof.Machine.execIncr addr s
  | .decr addr => Sys2Proof.Machine.execDecr addr s
  | .print addr => Sys2Proof.Machine.execPrint addr s
  | .printc addr => Sys2Proof.Machine.execPrintc addr s
  | .prints addr => Sys2Proof.Machine.execPrints addr s
  | .push addr => Sys2Proof.Machine.execPush addr s
  | .pushp ptr => Sys2Proof.Machine.execPushp ptr s
  | .pop addr => Sys2Proof.Machine.execPop addr s
  | .popp ptr => Sys2Proof.Machine.execPopp ptr s
  | .mode imm => Sys2Proof.Machine.execMode imm s
  | .halt => Sys2Proof.Machine.execHalt s

end Sys2Proof.Machine
end

