-- ==== Sys2Proof/Machine/HostCommands.lean ====
section
/-! DEFINITION. The host interface: construction, the loader writes, set_pc, set_sp, start, and what the host reads
(spec/10_state.md R36, spec/20_memory.md R60 to R64, spec/70_reset_and_hazards.md R230 to R237). -/

namespace Sys2Proof.Machine

/-- Construction with the parameters `c` (R230); parameters outside R6, R7 and R8 are refused (R220). -/
def construct (c : Config) : Outcome :=
  if c.wf then .next (State.initial c) else .refused .badParameters

/-- A successful loader write of the `n` cells from physical index `a`: the cells, and `SP_LIMIT` extended to cover
them (R60, R61, R63). -/
def State.loaded (s : State) (a : Int) (vs : List Int) : State :=
  { s with mem := s.mem.writeAll a.toNat vs, spLimit := max s.spLimit (a + vs.length) }

/-- `write_cells(a, s)` in a state that accepts it (R61).  The values are checked first: a value that does not fit is
refused whatever the range (log entry 7). -/
def writeCells (a : Int) (vs : List Int) (s : State) : Outcome :=
  if ∀ v ∈ vs, Fits s.cfg.W v then
    if vs.length = 0 then .next s
    else if a < 0 ∨ a + vs.length > s.cfg.CAP then raise .outOfCapacity s
    else .next (s.loaded a vs)
  else .refused .loaderValueTooWide

/-- `write_cell(a, v)` in a state that accepts it (R60). -/
def writeCell (a : Int) (v : Int) (s : State) : Outcome :=
  if Fits s.cfg.W v then
    if 0 ≤ a ∧ a < s.cfg.CAP then .next (s.loaded a [v])
    else raise .outOfCapacity s
  else .refused .loaderValueTooWide

/-- `write_bytes(a, b)` in a state that accepts it: for `W = 8` it is `write_cells` of the bytes as cells; for a wider
cell it is refused (R62). -/
def writeBytes (a : Int) (bs : List Byte) (s : State) : Outcome :=
  if s.cfg.W = 8 then writeCells a (bs.map byteCell) s
  else .refused .writeBytesNeedsByteCells

/-- A command in a state that accepts it (status Idle or Halted, R236).  `start` sets the status; the loop it runs is
`step` while the status is Running (R109, R234). -/
def accepted (c : Command) (s : State) : Outcome :=
  match c with
  | .writeCell a v => writeCell a v s
  | .writeCells a vs => writeCells a vs s
  | .writeBytes a bs => writeBytes a bs s
  | .setPc a => .next (s.setPc a)
  | .setSp a => .next (s.setSp a)
  | .start => .next (s.setStatus .running)

/-- A host command issued in the state `s`: the table of R236. -/
def command (c : Command) (s : State) : Outcome :=
  match s.status with
  | .idle => accepted c s
  | .running => .refused .commandWhileRunning
  | .halted => accepted c s
  | .faulted _ _ _ => .next s

/-- One step while no run is active: the host's next command is taken; with no command there is nothing to do and the
state stays as it is (log entries 4 and 5). -/
def takeCommand (s : State) : Outcome :=
  match s.commands with
  | [] => .next s
  | c :: cs => command c { s with commands := cs }

/-! ## What the host reads -/

/-- The four registers (R27, R36). -/
structure Registers where
  pc : Int
  sp : Int
  spLimit : Int
  mode : Int
  deriving DecidableEq, Repr

/-- The run status has reached a terminal value: Halted or Faulted (R100, R242).  Faulted(OutOfCapacity) is one too, which
a loader command sets outside any run (R202; log entry 13). -/
def Status.terminal : Status → Bool
  | .idle => false
  | .running => false
  | .halted => true
  | .faulted _ _ _ => true

/-- The status interface: the four registers, shown once a run has ended (R36).  DESIGN CHOICE (log entry 13): they are
shown in every Faulted state, so also after a loader's OutOfCapacity fault from Idle, where no run has ended; and in
Halted with the values they have now, those a later `set_pc` or `set_sp` wrote included.  R36 leaves both open. -/
def State.shownRegisters (s : State) : Option Registers :=
  if s.status.terminal then some { pc := s.pc, sp := s.sp, spLimit := s.spLimit, mode := s.mode } else none

/-- The numeric code of a fatal condition (R200). -/
def Fault.code : Fault → Nat
  | .invalidAddress => 1
  | .outOfCapacity => 2
  | .stackOverflow => 3
  | .stackUnderflow => 4
  | .illegalInstruction => 5
  | .arithmetic => 6
  | .widthPrecondition => 7

/-- What a run leaves: `(status, PC, SP, SP_LIMIT, MODE, M, output log)` (R242). -/
structure RunResult where
  status : Status
  registers : Registers
  mem : Memory
  out : List OutRecord
  deriving DecidableEq, Repr

/-- The result of the run that ended in `s`, if one did (R242).  DESIGN CHOICE (log entry 13): a state that a loader's
OutOfCapacity fault left, from Idle with no `start` issued or from Halted, answers its own tuple as a result too; and
after a command accepted in Halted (`set_pc`, `set_sp`, a loader write) the changed registers and memory are answered,
not those the run left.  R242 leaves these cases open.  `resultOfRun` (Machine/Run.lean) answers the tuple where the run
ends, before any such command. -/
def State.runResult (s : State) : Option RunResult :=
  s.shownRegisters.map fun r => { status := s.status, registers := r, mem := s.mem, out := s.out }

end Sys2Proof.Machine
end

