-- ==== Sys2Proof/Machine/Step.lean ====
section
/-! DEFINITION. One step of the engine (spec/40_dispatch.md R100, R102), and the placing of an instruction where the
next step fetches it. -/

namespace Sys2Proof.Machine

/-- One step.  While the status is Running it fetches, decodes and executes one whole instruction (R102).  In every
other status no instruction runs, and the step takes the host's next command (R236; log entry 4). -/
def step (s : State) : Host.Outcome State Fault Refusal :=
  match s.status with
  | .running =>
    match fetchInstr s with
    | .error k => raise k s
    | .ok i => exec i s
  | .idle => takeCommand s
  | .halted => takeCommand s
  | .faulted _ _ _ => takeCommand s

/-- `s` with the instruction whose words are the number `w` stored where the next step fetches, and with the status
Running, so that the very next step runs it (log entry 6). -/
def State.withFetchWord (s : State) (nbits w : Nat) : State :=
  (s.placeWords 0 (tableWords s.cfg.W nbits w)).setStatus .running

end Sys2Proof.Machine
end

