-- ==== Sys2Proof/Machine/Run.lean ====
section
/-! DEFINITION. A run: the loop of spec/40_dispatch.md R109 under fuel (spec/70_reset_and_hazards.md R242, R243). -/

namespace Sys2Proof.Machine

/-- `while status = Running: Step()` with at most `n` steps (R109, R243).  The loop ends at the first state whose status
is not Running, whatever fuel is left and whatever commands the host has pending: it takes none of them.  A state still
Running at the end says only that the run did not end within `n` steps. -/
def run : Nat → State → Outcome
  | 0, s => .next s
  | n + 1, s =>
    if s.status = .running then
      match step s with
      | .next t => run n t
      | .fault r => .fault r
      | .refused r => .refused r
    else .next s

/-- What the run that `s` is in leaves, read where the run ends and before the host's next command (R242); none when it
does not end within `n` steps, which is no end of the run (R243). -/
def resultOfRun (n : Nat) (s : State) : Option RunResult :=
  match run n s with
  | .next t => t.runResult
  | .fault _ => none
  | .refused _ => none

end Sys2Proof.Machine
end

