-- ==== Sys2Proof/Safety.lean ====
section
/-! DEFINITION. The terms claims are stated in: what a good state is, what an instruction leaves alone, and runs of
several instructions. -/

namespace Sys2Proof.Machine

/-- A record the output channel may hold (R170, R171): its address and an `Int` payload are W-bit values, `Char` and
`Str` records come from byte cells only, and a `Str` payload holds no zero byte. -/
def OutRecord.Valid (W : Nat) : OutRecord → Prop
  | .int a v => Fits W a ∧ Fits W v
  | .char a _ => W = 8 ∧ Fits W a
  | .str a bs => W = 8 ∧ Fits W a ∧ 0 ∉ bs

/-- What every reachable state satisfies. -/
structure State.Inv (s : State) : Prop where
  /-- The parameters meet R6, R7 and R8. -/
  cfg_wf : s.cfg.wf
  /-- Memory is in its canonical form. -/
  mem_wf : s.mem.wf
  /-- Every listed cell lies inside the array and holds a W-bit value (R30). -/
  mem_inRange : s.mem.inRange s.cfg
  /-- `MODE` is a W-bit value (R25). -/
  mode_fits : Fits s.cfg.W s.mode
  /-- `SP_LIMIT` is at least 0 and at most `CAP` (R63). -/
  spLimit_range : 0 ≤ s.spLimit ∧ s.spLimit ≤ s.cfg.CAP
  /-- The diagnostic record holds the values of `PC` and `SP` (R208). -/
  diagnostic : ∀ k p q, s.status = .faulted k p q → p = s.pc ∧ q = s.sp
  /-- Every output record is one the channel may hold (R170). -/
  out_valid : ∀ r ∈ s.out, r.Valid s.cfg.W

/-- `t` has every cell, as its reads show it, that `s` has. -/
def State.SameCells (s t : State) : Prop := ∀ p : Nat, t.cell p = s.cell p

/-- `t` agrees with `s` in everything but memory and `PC`: the parameters, `SP`, `SP_LIMIT`, `MODE`, the status, the
output log and the host's pending commands. -/
def State.SameRest (s t : State) : Prop :=
  t.cfg = s.cfg ∧ t.sp = s.sp ∧ t.spLimit = s.spLimit ∧ t.mode = s.mode ∧ t.status = s.status ∧ t.out = s.out ∧
    t.commands = s.commands

/-- The signed width that is enough for `PC`, `SP` and the address computations: `W + ceil(log2(CAP + 4)) + 2`
(R26). -/
def registerBits (c : Config) : Nat := c.W + Nat.clog 2 (c.CAP + 4) + 2

/-- A host command whose register argument, if it has one, fits in `R` signed bits (R26). -/
def Command.ArgFits (R : Nat) : Command → Prop
  | .setPc a | .setSp a => Fits R a
  | .writeCell _ _ | .writeCells _ _ | .writeBytes _ _ | .start => True

/-- The instructions of a list executed one after another, each from the state the one before it left, as long as the
status is Running (R108, R109).  Their words are taken as fetched. -/
def execAll : List Instr → State → Outcome
  | [], s => .next s
  | i :: is, s =>
    if s.status = .running then
      match exec i s with
      | .next t => execAll is t
      | .fault r => .fault r
      | .refused r => .refused r
    else .next s

/-- Exactly `n` steps of the machine, host commands taken outside a run among them, stopping at the first outcome that is
no next state.  This is no run under fuel: that is `run` (Machine/Run.lean), which stops where the run ends. -/
def runSteps : Nat → State → Outcome
  | 0, s => .next s
  | n + 1, s =>
    match step s with
    | .next t => runSteps n t
    | .fault r => .fault r
    | .refused r => .refused r

/-- A safe run: within `n` steps the run that `s` is in ends, and it ends by HALT, not by a fatal condition
(R242, R243). -/
def HaltsWithin (n : Nat) (s : State) : Prop := s.status = .running ∧ ∃ t, run n s = .next t ∧ t.status = .halted

end Sys2Proof.Machine
end

