-- ==== Sys2Proof/WellFormed.lean ====
section
/-! DEFINITION. Well-formed instructions: every operand word is a W-bit signed value (spec/30_encoding.md R90). -/

namespace Sys2Proof

/-- Every operand fits in `W` signed bits (R90: an operand outside `[MIN_W, MAX_W]` cannot be encoded).  No operand
value is illegal otherwise (R86): an address outside the memory array is a fault when it is resolved, not a decoding
error (R85). -/
def Instr.wellFormed (W : Nat) : Instr → Bool
  | .add dest src => decide (Fits W dest ∧ Fits W src)
  | .sub dest src => decide (Fits W dest ∧ Fits W src)
  | .mul dest src => decide (Fits W dest ∧ Fits W src)
  | .div dest src => decide (Fits W dest ∧ Fits W src)
  | .move dest src => decide (Fits W dest ∧ Fits W src)
  | .load dest imm => decide (Fits W dest ∧ Fits W imm)
  | .store ptr src => decide (Fits W ptr ∧ Fits W src)
  | .storep destPtr srcPtr => decide (Fits W destPtr ∧ Fits W srcPtr)
  | .jlt a b target => decide (Fits W a ∧ Fits W b ∧ Fits W target)
  | .jle a b target => decide (Fits W a ∧ Fits W b ∧ Fits W target)
  | .jge a b target => decide (Fits W a ∧ Fits W b ∧ Fits W target)
  | .jgt a b target => decide (Fits W a ∧ Fits W b ∧ Fits W target)
  | .jmp unused1 unused2 target => decide (Fits W unused1 ∧ Fits W unused2 ∧ Fits W target)
  | .rjlt a b offset => decide (Fits W a ∧ Fits W b ∧ Fits W offset)
  | .rjle a b offset => decide (Fits W a ∧ Fits W b ∧ Fits W offset)
  | .rjge a b offset => decide (Fits W a ∧ Fits W b ∧ Fits W offset)
  | .rjgt a b offset => decide (Fits W a ∧ Fits W b ∧ Fits W offset)
  | .rjmp unused1 unused2 offset => decide (Fits W unused1 ∧ Fits W unused2 ∧ Fits W offset)
  | .incr addr => decide (Fits W addr)
  | .decr addr => decide (Fits W addr)
  | .print addr => decide (Fits W addr)
  | .printc addr => decide (Fits W addr)
  | .prints addr => decide (Fits W addr)
  | .push addr => decide (Fits W addr)
  | .pushp ptr => decide (Fits W ptr)
  | .pop addr => decide (Fits W addr)
  | .popp ptr => decide (Fits W ptr)
  | .mode imm => decide (Fits W imm)
  | .halt => true

end Sys2Proof
end

