-- ==== Sys2Proof/Certificates/Slice0/Obligations.lean ====
section
/-! DEFINITION. The statements for the provers, each from the numbered rules of the spec. -/

open Sys2Proof Sys2Proof.Machine

/-! ## Encoding (spec/30_encoding.md) -/

/-- R90: an instruction encodes as its opcode value and its operand words; R83, R85: decoding gives every operand back.
For every legal choice of `W`, `CAP` and `OPC`, every well-formed instruction, and whatever words follow it. -/
def Obligations.DecodeOfEncodeIsIdentity : Prop :=
  ∀ c : Config, c.wf → ∀ i : Instr, i.wellFormed c.W = true → ∀ rest : List Int,
    decode c (encode c i ++ rest) = .ok (i, rest)

/-- R83, R88: a word sequence that decodes has one reading only: it is the encoding of what it decodes to, followed by
the words left over. -/
def Obligations.EncodeOfDecodeIsIdentity : Prop :=
  ∀ (c : Config) (ws rest : List Int) (i : Instr), decode c ws = .ok (i, rest) → encode c i ++ rest = ws

/-- R81, R90: the words of a well-formed instruction are as many as its width and every one fits in W signed bits. -/
def Obligations.EncodedWordsFitAndCount : Prop :=
  ∀ c : Config, c.wf → ∀ i : Instr, i.wellFormed c.W = true →
    (encode c i).length = i.mnemonic.width ∧ ∀ w ∈ encode c i, Fits c.W w

/-- R82, R90 and the vectors of 95: words written out from the default table decode to the instructions they stand
for, one or more of each family. -/
def Obligations.SpecWordsDecode : Prop :=
  decode Config.default [1, 0, 1] = .ok (.add 0 1, []) ∧
  decode Config.default [4, 8, 9] = .ok (.div 8 9, []) ∧
  decode Config.default [6, 1, 100] = .ok (.load 1 100, []) ∧
  decode Config.default [8, 1, 0] = .ok (.storep 1 0, []) ∧
  decode Config.default [9, 0, 1, 12] = .ok (.jlt 0 1 12, []) ∧
  decode Config.default [13, 99, -5, 6] = .ok (.jmp 99 (-5) 6, []) ∧
  decode Config.default [15, 0, 1, -4] = .ok (.rjle 0 1 (-4), []) ∧
  decode Config.default [19, 31] = .ok (.incr 31, []) ∧
  decode Config.default [21, 30, 29] = .ok (.print 30, [29]) ∧
  decode Config.default [25, 1] = .ok (.pushp 1, []) ∧
  decode Config.default [28, -1] = .ok (.mode (-1), []) ∧
  decode Config.default [29] = .ok (.halt, [])

/-- R86: under the default table the illegal opcode words are 0, every negative value, and every value from 30.  Said of
the parameters of the reset instance, the model's choice of log entry 1; only their opcode table matters. -/
def Obligations.IllegalOpcodeWordsOfDefaultTable : Prop :=
  ∀ (w0 : Int) (rest : List Int),
    decode Config.default (w0 :: rest) = .error (.illegalOpcode w0) ↔ w0 ≤ 0 ∨ 30 ≤ w0

/-! ## Int arithmetic and memory (spec/00_scope.md R10, spec/20_memory.md) -/

/-- R10: `wrap_W(v)` is the unique value of `[-2^(W-1), 2^(W-1)-1]` congruent to `v` modulo `2^W`. -/
def Obligations.WrapIsTheUniqueRepresentative : Prop :=
  ∀ (W : Nat) (v : Int), 1 ≤ W →
    Fits W (wrap W v) ∧ ((2 ^ W : Nat) : Int) ∣ v - wrap W v ∧
      ∀ r : Int, Fits W r → ((2 ^ W : Nat) : Int) ∣ v - r → r = wrap W v

/-- R120, R124: the quotient of DIV is the exact quotient rounded toward zero: the remainder is smaller than the
divisor and has the sign of the dividend; and the quotient of two cells is a cell but for `MIN_W / -1`. -/
def Obligations.DivQuotientRoundsTowardZero : Prop :=
  ∀ (W : Nat) (x y : Int), Fits W x → Fits W y → y ≠ 0 →
    (x - truncDiv x y * y).natAbs < y.natAbs ∧
    (0 ≤ x → 0 ≤ x - truncDiv x y * y) ∧ (x ≤ 0 → x - truncDiv x y * y ≤ 0) ∧
    (¬ (x = minCell W ∧ y = -1) → Fits W (truncDiv x y)) ∧
    (x = minCell W ∧ y = -1 → ¬ Fits W (truncDiv x y))

/-- Two memories in canonical form whose every cell reads the same are the same data (R30, R67; log entry 2). -/
def Obligations.CanonicalMemoriesWithEqualReadsAreEqual : Prop :=
  ∀ m n : Memory, m.wf → n.wf → (∀ p : Nat, m.read p = n.read p) → m = n

/-! ## The Addressing Resolver (spec/20_memory.md R53 to R56) -/

/-- R53: `Resolve(a)` is the index `a * MODE` when both `a` and `a * MODE` lie in `[0, CAP)`, and fails otherwise; a
rule that resolves goes on in the same state when it succeeds, and when it fails ends in
Faulted(InvalidAddress, PC, SP) with nothing else changed. -/
def Obligations.ResolveScalesAndChecksBothBounds : Prop :=
  ∀ (s : State) (a : Int),
    (∀ p : Nat, s.resolve a = some p ↔
      (0 ≤ a ∧ a < s.cfg.CAP) ∧ (0 ≤ a * s.mode ∧ a * s.mode < s.cfg.CAP) ∧ (p : Int) = a * s.mode) ∧
    (s.resolve a = none ↔
      ¬ (0 ≤ a ∧ a < s.cfg.CAP) ∨ ¬ (0 ≤ a * s.mode ∧ a * s.mode < s.cfg.CAP)) ∧
    (∀ (p : Nat) (rest : Nat → Outcome), s.resolve a = some p → resolving s a rest = rest p) ∧
    (∀ rest : Nat → Outcome, s.resolve a = none →
      resolving s a rest = .next { s with status := .faulted .invalidAddress s.pc s.sp })

/-- R56: what resolves under each class of `MODE` value. -/
def Obligations.ResolveByClassOfMode : Prop :=
  ∀ (s : State) (a : Int) (p : Nat), 1 ≤ s.cfg.CAP →
    (s.mode = 1 → (s.resolve a = some p ↔ 0 ≤ a ∧ a < s.cfg.CAP ∧ (p : Int) = a)) ∧
    (1 < s.mode → (s.resolve a = some p ↔ 0 ≤ a ∧ s.mode * a < s.cfg.CAP ∧ (p : Int) = s.mode * a)) ∧
    (s.mode = 0 → (s.resolve a = some p ↔ 0 ≤ a ∧ a < s.cfg.CAP ∧ p = 0)) ∧
    (s.mode < 0 → (s.resolve a = some p ↔ a = 0 ∧ p = 0))

/-- R105: an address between two that resolve resolves too; so when the last word of an instruction can be fetched,
every earlier one can. -/
def Obligations.ResolveIsMonotoneBetween : Prop :=
  ∀ (s : State) (x y z : Int), x ≤ y → y ≤ z → (s.resolve x).isSome → (s.resolve z).isSome → (s.resolve y).isSome

/-! ## The step (spec/40_dispatch.md) -/

/-- R102: when the words at `PC`, `PC+1`, ... as the resolver reaches them are the words of `i`, a step of a running
machine is the execute phase of `i`. -/
def Obligations.StepRunsTheDecodedInstruction : Prop :=
  ∀ (s : State) (i : Instr), s.status = .running → s.cfg.wf → i.wellFormed s.cfg.W = true →
    (∀ (k : Nat) (w : Int), (encode s.cfg i)[k]? = some w →
      ∃ p : Nat, s.resolve (s.pc + k) = some p ∧ s.cell p = w) →
    step s = exec i s

/-- R103: when `Resolve(PC)` fails the step ends Faulted(InvalidAddress, PC, SP) and nothing else changes. -/
def Obligations.OpcodeFetchFault : Prop :=
  ∀ s : State, s.status = .running → s.resolve s.pc = none →
    step s = .next { s with status := .faulted .invalidAddress s.pc s.sp }

/-- R104: an opcode word outside the image of `OPC` ends the step Faulted(IllegalInstruction, PC, SP), whatever the
words after it, and nothing else changes. -/
def Obligations.IllegalOpcodeFault : Prop :=
  ∀ (s : State) (p : Nat), s.status = .running → s.resolve s.pc = some p →
    (∀ m : Mnemonic, s.cfg.opcodeOf m ≠ s.cell p) →
    step s = .next { s with status := .faulted .illegalInstruction s.pc s.sp }

/-- R105: when one of the operand words cannot be fetched the step ends Faulted(InvalidAddress, PC, SP) and nothing is
written, used or not the word (a jump not taken, the unused words of JMP). -/
def Obligations.OperandFetchFault : Prop :=
  ∀ (s : State) (p : Nat) (m : Mnemonic) (k : Nat), s.cfg.wf → s.status = .running → s.resolve s.pc = some p →
    s.cell p = s.cfg.opcodeOf m → 1 ≤ k → k < m.width → s.resolve (s.pc + k) = none →
    step s = .next { s with status := .faulted .invalidAddress s.pc s.sp }

/-- R100: a step of a running machine always answers a next state, and ends in one of three ways: Running, Halted, or
Faulted with the values of PC and SP; in the last two PC has not moved (R106). -/
def Obligations.RunningStepEndsInThreeWays : Prop :=
  ∀ s : State, s.status = .running → ∃ t : State, step s = .next t ∧
    (t.status = .running ∨ (t.status = .halted ∧ t.pc = s.pc) ∨
      ∃ k : Fault, t.status = .faulted k t.pc t.sp ∧ t.pc = s.pc)

/-- R236 and the model's own input queue (log entries 4 and 5): while no run is active a step takes the host's next
command, and with no command pending it leaves the state as it is. -/
def Obligations.StepOutsideARunTakesOneCommand : Prop :=
  ∀ s : State, s.status ≠ .running →
    (s.commands = [] → step s = .next s) ∧
    (∀ (c : Command) (cs : List Command), s.commands = c :: cs → step s = command c { s with commands := cs })

/-! ## Whole-machine rules -/

/-- Every step keeps the invariant: legal parameters, memory in canonical form with W-bit cells inside the array,
`MODE` a W-bit value, `SP_LIMIT` in `[0, CAP]`, a diagnostic record that shows `PC` and `SP`, and only records the
output channel may hold (R25, R30, R63, R170, R208). -/
def Obligations.StepKeepsMachineInvariant : Prop :=
  ∀ s t : State, s.Inv → step s = .next t → t.Inv

/-- The reset state, which is the instance of log entry 1, meets the invariant. -/
def Obligations.ResetMeetsMachineInvariant : Prop := State.reset.Inv

/-- R230, R35: construction with legal parameters gives the state of R35, which meets the invariant.  That every other
`Config`, an ill-formed `OPC` included, is refused by the name badParameters is the model's choice (log entry 10), beside
R220's duty of the host to give `W >= 8` and `CAP >= 1`. -/
def Obligations.ConstructionGivesResetValues : Prop :=
  ∀ c : Config,
    (c.wf → ∃ s : State, construct c = .next s ∧ s.Inv ∧ s.cfg = c ∧ (∀ p : Nat, s.cell p = 0) ∧ s.pc = 0 ∧ s.sp = 0 ∧
      s.spLimit = 0 ∧ s.mode = 1 ∧ s.status = .idle ∧ s.out = []) ∧
    (¬ c.wf → construct c = .refused .badParameters)

/-- R209: Faulted is terminal for good: from there any number of steps changes nothing but takes the pending host
commands away (the model's queue, log entry 4), which have no effect. -/
def Obligations.FaultedIsFinal : Prop :=
  ∀ (n : Nat) (s : State) (k : Fault) (p q : Int), s.status = .faulted k p q →
    runSteps n s = .next { s with commands := s.commands.drop n }

/-- R27: during a run nothing writes `SP_LIMIT`; only MODE writes `MODE`; only PUSH and PUSHP (minus one) and POP and
POPP (plus one) write `SP`; the parameters and the host's pending commands stay. -/
def Obligations.RegisterWritersDuringARun : Prop :=
  ∀ s t : State, s.status = .running → step s = .next t →
    t.cfg = s.cfg ∧ t.commands = s.commands ∧ t.spLimit = s.spLimit ∧
    (t.mode = s.mode ∨ ∃ k : Int, fetchInstr s = .ok (.mode k) ∧ t.mode = k) ∧
    (t.sp = s.sp ∨
      (∃ a : Int, (fetchInstr s = .ok (.push a) ∨ fetchInstr s = .ok (.pushp a)) ∧ t.sp = s.sp - 1) ∨
      (∃ a : Int, (fetchInstr s = .ok (.pop a) ∨ fetchInstr s = .ok (.popp a)) ∧ t.sp = s.sp + 1))

/-- R59: one instruction writes at most one cell. -/
def Obligations.AtMostOneCellWritten : Prop :=
  ∀ (i : Instr) (s t : State), s.mem.wf → exec i s = .next t →
    ∀ p q : Nat, t.cell p ≠ s.cell p → t.cell q ≠ s.cell q → p = q

/-- R107, R208: an instruction that faults has written no cell, emitted nothing and left `PC`, `MODE` and `SP_LIMIT`;
`SP` is as before, or one more for the access faults of POP and POPP; the record shows `PC` and that `SP`. -/
def Obligations.FaultsArePrecise : Prop :=
  ∀ (i : Instr) (s t : State) (k : Fault) (p q : Int), s.status = .running → exec i s = .next t →
    t.status = .faulted k p q →
    t.cfg = s.cfg ∧ t.mem = s.mem ∧ t.out = s.out ∧ t.pc = s.pc ∧ t.mode = s.mode ∧ t.spLimit = s.spLimit ∧
    t.commands = s.commands ∧ p = s.pc ∧ q = t.sp ∧
    (t.sp = s.sp ∨
      (k = .invalidAddress ∧ t.sp = s.sp + 1 ∧ ∃ a : Int, i = .pop a ∨ i = .popp a))

/-- R170: an instruction appends at most one record to the output log, and only PRINT, PRINTC and PRINTS append one;
a step that faults emits nothing. -/
def Obligations.OutputLogOnlyGrowsByPrints : Prop :=
  ∀ (i : Instr) (s t : State), s.status = .running → exec i s = .next t →
    t.out = s.out ∨
    (t.status = .running ∧ ∃ r : OutRecord, t.out = s.out ++ [r] ∧
      ∃ a : Int, r.addr = a ∧ (i = .print a ∨ i = .printc a ∨ i = .prints a))

/-- R63: no step lowers `SP_LIMIT`. -/
def Obligations.SpLimitNeverDecreases : Prop :=
  ∀ s t : State, step s = .next t → s.spLimit ≤ t.spLimit

/-- R26: with host arguments in the range of `R = W + ceil(log2(CAP + 4)) + 2` signed bits, `PC` and `SP` never leave
that range. -/
def Obligations.FiniteRegistersSuffice : Prop :=
  ∀ s t : State, s.Inv → Fits (registerBits s.cfg) s.pc → Fits (registerBits s.cfg) s.sp →
    (∀ c ∈ s.commands, c.ArgFits (registerBits s.cfg)) → step s = .next t →
    Fits (registerBits t.cfg) t.pc ∧ Fits (registerBits t.cfg) t.sp ∧
      ∀ c ∈ t.commands, c.ArgFits (registerBits t.cfg)

/-! ## Arithmetic (spec/41_arithmetic.md) -/

/-- R121, R122, R123: ADD, SUB and MUL replace the destination cell by the wrapped exact result of the two cells read
before the write, and change nothing else but `PC`; a failing resolution raises InvalidAddress and writes no cell. -/
def Obligations.AddSubMulResults : Prop :=
  ∀ (s : State) (dest src : Int),
    (∀ d e : Nat, s.resolve dest = some d → s.resolve src = some e →
      exec (.add dest src) s =
        .next { s with mem := s.mem.write d (wrap s.cfg.W (s.cell d + s.cell e)), pc := s.pc + 3 } ∧
      exec (.sub dest src) s =
        .next { s with mem := s.mem.write d (wrap s.cfg.W (s.cell d - s.cell e)), pc := s.pc + 3 } ∧
      exec (.mul dest src) s =
        .next { s with mem := s.mem.write d (wrap s.cfg.W (s.cell d * s.cell e)), pc := s.pc + 3 }) ∧
    (s.resolve dest = none ∨ s.resolve src = none →
      ∀ i ∈ [Instr.add dest src, Instr.sub dest src, Instr.mul dest src],
        exec i s = .next { s with status := .faulted .invalidAddress s.pc s.sp })

/-- R124: DIV writes the truncated quotient; a divisor 0 and `MIN_W / -1` raise Arithmetic with nothing changed; a
failing resolution, checked first, raises InvalidAddress. -/
def Obligations.DivResult : Prop :=
  ∀ (s : State) (dest src : Int),
    (∀ d e : Nat, s.resolve dest = some d → s.resolve src = some e →
      (s.cell e ≠ 0 → ¬ (s.cell d = minCell s.cfg.W ∧ s.cell e = -1) →
        exec (.div dest src) s =
          .next { s with mem := s.mem.write d (truncDiv (s.cell d) (s.cell e)), pc := s.pc + 3 }) ∧
      (s.cell e = 0 ∨ (s.cell d = minCell s.cfg.W ∧ s.cell e = -1) →
        exec (.div dest src) s = .next { s with status := .faulted .arithmetic s.pc s.sp })) ∧
    (s.resolve dest = none ∨ s.resolve src = none →
      exec (.div dest src) s = .next { s with status := .faulted .invalidAddress s.pc s.sp })

/-! ## Data movement (spec/42_data_movement.md) -/

/-- R130: MOVE copies the source cell into the destination cell; a failing resolution raises InvalidAddress and
writes no cell. -/
def Obligations.MoveResult : Prop :=
  ∀ (s : State) (dest src : Int),
    (∀ d e : Nat, s.resolve dest = some d → s.resolve src = some e →
      exec (.move dest src) s = .next { s with mem := s.mem.write d (s.cell e), pc := s.pc + 3 }) ∧
    (s.resolve dest = none ∨ s.resolve src = none →
      exec (.move dest src) s = .next { s with status := .faulted .invalidAddress s.pc s.sp })

/-- R131: LOAD writes the literal word, never resolved, into the destination cell; a destination that does not resolve
raises InvalidAddress and no cell is written; and its law: LOAD of any value to an in-range destination, followed by
PRINT of it, emits that value under the logical address. -/
def Obligations.LoadResult : Prop :=
  ∀ (s : State) (dest imm : Int),
    (∀ d : Nat, s.resolve dest = some d →
      exec (.load dest imm) s = .next { s with mem := s.mem.write d imm, pc := s.pc + 3 }) ∧
    (s.resolve dest = none →
      exec (.load dest imm) s = .next { s with status := .faulted .invalidAddress s.pc s.sp }) ∧
    (∀ d : Nat, s.mem.wf → s.status = .running → s.resolve dest = some d →
      ∃ t : State, execAll [.load dest imm, .print dest] s = .next t ∧ t.out = s.out ++ [.int dest imm] ∧
        t.pc = s.pc + 5 ∧ t.status = .running)

/-- R132, R133: STORE writes the source cell through a pointer cell, whose value is resolved like any logical address;
STOREP copies through two pointer cells; any of their resolutions failing raises InvalidAddress and writes no cell. -/
def Obligations.StoreAndStorepResults : Prop :=
  ∀ (s : State) (dptr src : Int),
    (∀ r d e : Nat, s.resolve dptr = some r → s.resolve (s.cell r) = some d → s.resolve src = some e →
      exec (.store dptr src) s = .next { s with mem := s.mem.write d (s.cell e), pc := s.pc + 3 }) ∧
    (∀ r1 d r2 e : Nat, s.resolve dptr = some r1 → s.resolve (s.cell r1) = some d → s.resolve src = some r2 →
      s.resolve (s.cell r2) = some e →
      exec (.storep dptr src) s = .next { s with mem := s.mem.write d (s.cell e), pc := s.pc + 3 }) ∧
    (s.resolve dptr = none ∨ (∃ r : Nat, s.resolve dptr = some r ∧ s.resolve (s.cell r) = none) ∨
      s.resolve src = none →
      ∀ i ∈ [Instr.store dptr src, Instr.storep dptr src],
        exec i s = .next { s with status := .faulted .invalidAddress s.pc s.sp }) ∧
    (∀ r : Nat, s.resolve src = some r → s.resolve (s.cell r) = none →
      exec (.storep dptr src) s = .next { s with status := .faulted .invalidAddress s.pc s.sp })

/-! ## Control transfer (spec/43_jumps.md) -/

/-- R144 to R148: the absolute jumps: `PC` takes the target when the signed comparison holds and `PC + 4` otherwise,
nothing else changes; a failing resolution raises InvalidAddress; JMP always jumps and resolves nothing. -/
def Obligations.AbsoluteJumpResults : Prop :=
  ∀ (s : State) (a b target : Int),
    (∀ p q : Nat, s.resolve a = some p → s.resolve b = some q →
      exec (.jlt a b target) s = .next { s with pc := if s.cell p < s.cell q then target else s.pc + 4 } ∧
      exec (.jle a b target) s = .next { s with pc := if s.cell p ≤ s.cell q then target else s.pc + 4 } ∧
      exec (.jge a b target) s = .next { s with pc := if s.cell p ≥ s.cell q then target else s.pc + 4 } ∧
      exec (.jgt a b target) s = .next { s with pc := if s.cell p > s.cell q then target else s.pc + 4 }) ∧
    (s.resolve a = none ∨ s.resolve b = none →
      ∀ i ∈ [Instr.jlt a b target, Instr.jle a b target, Instr.jge a b target, Instr.jgt a b target],
        exec i s = .next { s with status := .faulted .invalidAddress s.pc s.sp }) ∧
    exec (.jmp a b target) s = .next { s with pc := target }

/-- R149 to R153: the relative jumps: as the absolute ones, with the offset counted from the address of the jump's own
opcode word (R142). -/
def Obligations.RelativeJumpResults : Prop :=
  ∀ (s : State) (a b offset : Int),
    (∀ p q : Nat, s.resolve a = some p → s.resolve b = some q →
      exec (.rjlt a b offset) s = .next { s with pc := if s.cell p < s.cell q then s.pc + offset else s.pc + 4 } ∧
      exec (.rjle a b offset) s = .next { s with pc := if s.cell p ≤ s.cell q then s.pc + offset else s.pc + 4 } ∧
      exec (.rjge a b offset) s = .next { s with pc := if s.cell p ≥ s.cell q then s.pc + offset else s.pc + 4 } ∧
      exec (.rjgt a b offset) s = .next { s with pc := if s.cell p > s.cell q then s.pc + offset else s.pc + 4 }) ∧
    (s.resolve a = none ∨ s.resolve b = none →
      ∀ i ∈ [Instr.rjlt a b offset, Instr.rjle a b offset, Instr.rjge a b offset, Instr.rjgt a b offset],
        exec i s = .next { s with status := .faulted .invalidAddress s.pc s.sp }) ∧
    exec (.rjmp a b offset) s = .next { s with pc := s.pc + offset }

/-- R154: a relative jump by `o` does what the absolute jump to `PC_before + o` does, for every condition and for
RJMP. -/
def Obligations.RelativeAndAbsoluteJumpsAgree : Prop :=
  ∀ (s : State) (a b o : Int),
    exec (.rjlt a b o) s = exec (.jlt a b (s.pc + o)) s ∧ exec (.rjle a b o) s = exec (.jle a b (s.pc + o)) s ∧
    exec (.rjge a b o) s = exec (.jge a b (s.pc + o)) s ∧ exec (.rjgt a b o) s = exec (.jgt a b (s.pc + o)) s ∧
    exec (.rjmp a b o) s = exec (.jmp a b (s.pc + o)) s

/-- R141: an absolute target is the word itself, written to `PC` unchecked: JMP completes with any target, and so do
the comparison jumps when their comparison holds (`AbsoluteJumpResults`); when the target then does not resolve, the
next step faults with InvalidAddress and `pc` = the target. -/
def Obligations.JumpTargetIsCheckedAtTheNextFetch : Prop :=
  ∀ (s : State) (a b target : Int), s.status = .running →
    exec (.jmp a b target) s = .next { s with pc := target } ∧
    ∀ i ∈ [Instr.jlt a b target, .jle a b target, .jge a b target, .jgt a b target, .jmp a b target],
      ∀ t : State, exec i s = .next t → t.status = .running → t.pc = target → s.resolve target = none →
        step t = .next { t with status := .faulted .invalidAddress target s.sp }

/-! ## Increment and decrement (spec/44_incr_decr.md) -/

/-- R160, R161: INCR and DECR replace the cell by the wrapped sum or difference with one; a failing resolution raises
InvalidAddress and writes no cell. -/
def Obligations.IncrDecrResults : Prop :=
  ∀ (s : State) (addr : Int),
    (∀ d : Nat, s.resolve addr = some d →
      exec (.incr addr) s = .next { s with mem := s.mem.write d (wrap s.cfg.W (s.cell d + 1)), pc := s.pc + 2 } ∧
      exec (.decr addr) s = .next { s with mem := s.mem.write d (wrap s.cfg.W (s.cell d - 1)), pc := s.pc + 2 }) ∧
    (s.resolve addr = none → ∀ i ∈ [Instr.incr addr, Instr.decr addr],
      exec i s = .next { s with status := .faulted .invalidAddress s.pc s.sp })

/-! ## Output (spec/45_output.md) -/

/-- R172, R173: PRINT appends the cell's value under the logical address; with `W = 8` PRINTC appends the cell's low
byte, and with any other `W` it raises WidthPrecondition before it resolves its operand (R171); a failing resolution
raises InvalidAddress; nothing else changes but `PC`. -/
def Obligations.PrintAndPrintcResults : Prop :=
  ∀ (s : State) (addr : Int),
    (∀ p : Nat, s.resolve addr = some p →
      exec (.print addr) s = .next { s with out := s.out ++ [.int addr (s.cell p)], pc := s.pc + 2 }) ∧
    (s.resolve addr = none →
      exec (.print addr) s = .next { s with status := .faulted .invalidAddress s.pc s.sp }) ∧
    (∀ p : Nat, s.cfg.W = 8 → s.resolve addr = some p →
      exec (.printc addr) s =
        .next { s with out := s.out ++ [.char addr (BitVec.ofInt 8 (s.cell p))], pc := s.pc + 2 }) ∧
    (s.cfg.W = 8 → s.resolve addr = none →
      exec (.printc addr) s = .next { s with status := .faulted .invalidAddress s.pc s.sp }) ∧
    (s.cfg.W ≠ 8 → exec (.printc addr) s = .next { s with status := .faulted .widthPrecondition s.pc s.sp })

/-- R174: with `W = 8` PRINTS emits the low bytes of the cells at consecutive physical indices from the resolved one up
to the first zero cell; without a zero cell before `CAP`, or when the resolution fails, it raises InvalidAddress; with
any other `W` it raises WidthPrecondition. -/
def Obligations.PrintsResult : Prop :=
  ∀ (s : State) (addr : Int),
    (∀ p n : Nat, s.cfg.W = 8 → s.resolve addr = some p → p + n < s.cfg.CAP → (∀ k < n, s.cell (p + k) ≠ 0) →
      s.cell (p + n) = 0 →
      exec (.prints addr) s =
        .next { s with out := s.out ++ [.str addr ((List.range n).map fun k => BitVec.ofInt 8 (s.cell (p + k)))],
                       pc := s.pc + 2 }) ∧
    (∀ p : Nat, s.cfg.W = 8 → s.resolve addr = some p → (∀ q : Nat, p ≤ q → q < s.cfg.CAP → s.cell q ≠ 0) →
      exec (.prints addr) s = .next { s with status := .faulted .invalidAddress s.pc s.sp }) ∧
    (s.cfg.W = 8 → s.resolve addr = none →
      exec (.prints addr) s = .next { s with status := .faulted .invalidAddress s.pc s.sp }) ∧
    (s.cfg.W ≠ 8 → exec (.prints addr) s = .next { s with status := .faulted .widthPrecondition s.pc s.sp })

/-- R170 and the vectors T-OUT-1, T-OUT-2, T-OUT-5, T-OUT-8 of 95: the text lines of records. -/
def Obligations.RecordsRenderAsTheSpecsLines : Prop :=
  (OutRecord.int 0 100).line = asciiBytes "[0] 100\n".toList ∧
  (OutRecord.int 3 (-5)).line = asciiBytes "[3] -5\n".toList ∧
  (OutRecord.char 5 0x41).line = asciiBytes "[5] A\n".toList ∧
  (OutRecord.str 10 [72, 105]).line = asciiBytes "[10] Hi\n".toList ∧
  (OutRecord.int 2 3628800).line = asciiBytes "[2] 3628800\n".toList

/-! ## Stack (spec/46_stack.md) -/

/-- R183, R184: PUSH and PUSHP: StackOverflow before anything else when `SP < SP_LIMIT`; otherwise the source value,
read before the write, goes to the cell `SP` resolves to and `SP` drops by one; a failing resolution raises
InvalidAddress with `SP` unchanged. -/
def Obligations.PushResults : Prop :=
  ∀ (s : State) (w : Int),
    (s.sp < s.spLimit → ∀ i ∈ [Instr.push w, Instr.pushp w],
      exec i s = .next { s with status := .faulted .stackOverflow s.pc s.sp }) ∧
    (∀ p t : Nat, s.spLimit ≤ s.sp → s.resolve w = some p → s.resolve s.sp = some t →
      exec (.push w) s = .next { s with mem := s.mem.write t (s.cell p), sp := s.sp - 1, pc := s.pc + 2 }) ∧
    (∀ r p t : Nat, s.spLimit ≤ s.sp → s.resolve w = some r → s.resolve (s.cell r) = some p →
      s.resolve s.sp = some t →
      exec (.pushp w) s = .next { s with mem := s.mem.write t (s.cell p), sp := s.sp - 1, pc := s.pc + 2 }) ∧
    (s.spLimit ≤ s.sp → s.resolve w = none ∨ s.resolve s.sp = none → ∀ i ∈ [Instr.push w, Instr.pushp w],
      exec i s = .next { s with status := .faulted .invalidAddress s.pc s.sp }) ∧
    (∀ r : Nat, s.spLimit ≤ s.sp → s.resolve w = some r → s.resolve (s.cell r) = none →
      exec (.pushp w) s = .next { s with status := .faulted .invalidAddress s.pc s.sp })

/-- R182, R185, R186: POP and POPP: StackUnderflow before anything else when `SP >= CAP`; otherwise `SP` rises by one, and
the cell it then resolves to is copied to the destination; a failing resolution raises InvalidAddress, writes nothing,
and leaves the increment, which the diagnostic record shows; so a pop from `SP = CAP - 1` raises InvalidAddress with
`sp = CAP`. -/
def Obligations.PopResults : Prop :=
  ∀ (s : State) (w : Int),
    (s.sp ≥ s.cfg.CAP → ∀ i ∈ [Instr.pop w, Instr.popp w],
      exec i s = .next { s with status := .faulted .stackUnderflow s.pc s.sp }) ∧
    (∀ t d : Nat, s.sp < s.cfg.CAP → s.resolve (s.sp + 1) = some t → s.resolve w = some d →
      exec (.pop w) s = .next { s with mem := s.mem.write d (s.cell t), sp := s.sp + 1, pc := s.pc + 2 }) ∧
    (∀ t r d : Nat, s.sp < s.cfg.CAP → s.resolve (s.sp + 1) = some t → s.resolve w = some r →
      s.resolve (s.cell r) = some d →
      exec (.popp w) s = .next { s with mem := s.mem.write d (s.cell t), sp := s.sp + 1, pc := s.pc + 2 }) ∧
    (s.sp < s.cfg.CAP → s.resolve (s.sp + 1) = none ∨ s.resolve w = none → ∀ i ∈ [Instr.pop w, Instr.popp w],
      exec i s = .next { s with sp := s.sp + 1, status := .faulted .invalidAddress s.pc (s.sp + 1) }) ∧
    (∀ r : Nat, s.sp < s.cfg.CAP → s.resolve w = some r → s.resolve (s.cell r) = none →
      exec (.popp w) s = .next { s with sp := s.sp + 1, status := .faulted .invalidAddress s.pc (s.sp + 1) }) ∧
    (s.sp = (s.cfg.CAP : Int) - 1 → ∀ i ∈ [Instr.pop w, Instr.popp w],
      exec i s = .next { s with sp := s.cfg.CAP, status := .faulted .invalidAddress s.pc s.cfg.CAP })

/-- R187: the round trip: PUSH then POP restores `SP` and sets the second address's cell to the value the first had
before the push, for every `MODE`. -/
def Obligations.PushThenPopRoundTrip : Prop :=
  ∀ (s : State) (addr addr2 : Int) (p d t : Nat), s.mem.wf → s.status = .running → s.spLimit ≤ s.sp →
    s.resolve s.sp = some t → s.resolve addr = some p → s.resolve addr2 = some d →
    ∃ u : State, execAll [.push addr, .pop addr2] s = .next u ∧ u.status = .running ∧ u.sp = s.sp ∧
      u.cell d = s.cell p ∧ u.pc = s.pc + 4 ∧ ∀ q : Nat, q ≠ d → q ≠ t → u.cell q = s.cell q

/-- R188: from `SP = s0 >= SP_LIMIT`, as long as every stack address resolves, PUSH succeeds `s0 - SP_LIMIT + 1` times
and the next one raises StackOverflow. -/
def Obligations.PushesUntilOverflow : Prop :=
  ∀ (s : State) (addr : Int) (p : Nat), s.status = .running → s.spLimit ≤ s.sp → s.resolve addr = some p →
    (∀ x : Int, s.spLimit ≤ x → x ≤ s.sp → (s.resolve x).isSome) →
    ∃ t : State, execAll (List.replicate (s.sp - s.spLimit + 1).toNat (.push addr)) s = .next t ∧
      t.status = .running ∧ t.sp = s.spLimit - 1 ∧
      exec (.push addr) t = .next { t with status := .faulted .stackOverflow t.pc t.sp }

/-- R63, R181: no push changes a cell below `SP_LIMIT`, so none changes a loaded cell, for every `MODE`.  (With
`MODE = 0` the push does write one, with the value it has: the next statement; log entry 8.) -/
def Obligations.PushChangesNoLoadedCell : Prop :=
  ∀ (s t : State) (w : Int), s.mem.wf → s.status = .running →
    (exec (.push w) s = .next t ∨ exec (.pushp w) s = .next t) →
    ∀ q : Nat, (q : Int) < s.spLimit → t.cell q = s.cell q

/-- By R53 and R56 every address resolves to cell 0 under `MODE = 0`, so by R183 and R184 a push there reads cell 0
and writes it back: memory is the same, while `SP` and `PC` move as for any push (log entry 8). -/
def Obligations.PushUnderModeZeroChangesNoCell : Prop :=
  ∀ (s : State) (w : Int), s.mem.wf → s.mode = 0 → s.spLimit ≤ s.sp →
    0 ≤ s.sp → s.sp < s.cfg.CAP → 0 ≤ w → w < s.cfg.CAP →
    exec (.push w) s = .next { s with sp := s.sp - 1, pc := s.pc + 2 } ∧
    (0 ≤ s.cell 0 → s.cell 0 < s.cfg.CAP →
      exec (.pushp w) s = .next { s with sp := s.sp - 1, pc := s.pc + 2 })

/-! ## System (spec/47_system.md) -/

/-- R190, R191: MODE writes the scale factor, any value; HALT ends the run with `PC` at the HALT. -/
def Obligations.ModeAndHaltResults : Prop :=
  ∀ s : State,
    (∀ k : Int, exec (.mode k) s = .next { s with mode := k, pc := s.pc + 2 }) ∧
    exec .halt s = .next { s with status := .halted }

/-- R240, R54: after `MODE k` at logical address `p`, word `j` of the next instruction is fetched from physical index
`k * (p + 2 + j)`, and fails to be fetched when that index is out of range. -/
def Obligations.ModeRescalesTheNextFetch : Prop :=
  ∀ (s : State) (k : Int) (j : Nat), ∃ t : State, exec (.mode k) s = .next t ∧
    (∀ x : Nat, 0 ≤ s.pc + 2 + j → s.pc + 2 + j < s.cfg.CAP → (x : Int) = k * (s.pc + 2 + j) → x < s.cfg.CAP →
      t.fetch j = some (s.cell x)) ∧
    (k * (s.pc + 2 + j) < 0 ∨ (s.cfg.CAP : Int) ≤ k * (s.pc + 2 + j) → t.fetch j = none)

/-! ## Frames -/

/-- Of the instructions that store nothing (the jumps, the prints, MODE, HALT): every cell reads as before, and so do
the parameters, `SP`, `SP_LIMIT` and the host's pending commands; `MODE` too but for the instruction MODE, the output
log but for the prints, the status but for HALT and for a fault. -/
def Obligations.FrameOfInstructionsThatStoreNothing : Prop :=
  ∀ (i : Instr) (s t : State),
    i.mnemonic ∈ [Mnemonic.jlt, .jle, .jge, .jgt, .jmp, .rjlt, .rjle, .rjge, .rjgt, .rjmp, .print, .printc, .prints,
      .mode, .halt] →
    exec i s = .next t →
    s.SameCells t ∧ t.cfg = s.cfg ∧ t.sp = s.sp ∧ t.spLimit = s.spLimit ∧ t.commands = s.commands ∧
    (i.mnemonic ≠ .mode → t.mode = s.mode) ∧
    (i.mnemonic ∉ [Mnemonic.print, .printc, .prints] → t.out = s.out) ∧
    (i.mnemonic ≠ .halt → t.status = s.status ∨ ∃ k : Fault, t.status = .faulted k s.pc s.sp)

/-- Of the instructions that store through an address operand, ADD, SUB, MUL, DIV, MOVE, LOAD, INCR and DECR: when
`Resolve` gives `d` as the index of the destination operand, every cell but `d` reads as before; a faulting one changes
no cell; the parameters, `SP`, `SP_LIMIT`, `MODE`, the output log and the pending commands stay, and the status but for
a fault. -/
def Obligations.FrameOfInstructionsThatStoreToAnAddress : Prop :=
  ∀ (i : Instr) (s t : State) (dest : Int), s.mem.wf →
    i.mnemonic ∈ [Mnemonic.add, .sub, .mul, .div, .move, .load, .incr, .decr] → i.operands.head? = some dest →
    exec i s = .next t →
    (∀ d : Nat, s.resolve dest = some d → ∀ p : Nat, p ≠ d → t.cell p = s.cell p) ∧
    (s.resolve dest = none → s.SameCells t) ∧
    (s.SameRest t ∨ (s.SameCells t ∧ t.pc = s.pc ∧ ∃ k : Fault, s.SameRest (t.setStatus s.status) ∧
      t.status = .faulted k s.pc s.sp))

/-- Of the instructions that store through a pointer operand, STORE and STOREP: when the pointer cell's value resolves
to `d`, every cell but `d` reads as before; when the pointer or its value does not resolve, or the source (for STOREP
also the source pointer's value) does not, every cell does; nothing else changes but `PC`, and the status when they
fault. -/
def Obligations.FrameOfInstructionsThatStoreThroughAPointer : Prop :=
  ∀ (s t : State) (ptr src : Int), s.mem.wf →
    (exec (.store ptr src) s = .next t ∨ exec (.storep ptr src) s = .next t) →
    (∀ r d : Nat, s.resolve ptr = some r → s.resolve (s.cell r) = some d → ∀ p : Nat, p ≠ d → t.cell p = s.cell p) ∧
    (s.resolve ptr = none ∨ (∃ r : Nat, s.resolve ptr = some r ∧ s.resolve (s.cell r) = none) → s.SameCells t) ∧
    (s.resolve src = none → s.SameCells t) ∧
    (exec (.storep ptr src) s = .next t →
      ∀ r : Nat, s.resolve src = some r → s.resolve (s.cell r) = none → s.SameCells t) ∧
    (s.SameRest t ∨ (s.SameCells t ∧ t.pc = s.pc ∧ s.SameRest (t.setStatus s.status) ∧
      t.status = .faulted .invalidAddress s.pc s.sp))

/-- Of the stack instructions: a push stores to the cell `SP` resolves to, POP to the cell its operand resolves to,
POPP to the cell its pointer's value resolves to; every other cell reads as before.  When the stack address (`SP` for a
push, `SP + 1` for a pop), the operand, or for PUSHP and POPP the pointer's value does not resolve, every cell reads as
before.  The parameters, `SP_LIMIT`, `MODE`, the output log and the pending commands stay, and the status but for a
fault. -/
def Obligations.FrameOfStackInstructions : Prop :=
  ∀ (i : Instr) (s t : State) (w : Int), s.mem.wf → i ∈ [Instr.push w, Instr.pushp w, Instr.pop w, Instr.popp w] →
    exec i s = .next t →
    (i = .push w ∨ i = .pushp w → ∀ d : Nat, s.resolve s.sp = some d → ∀ p : Nat, p ≠ d → t.cell p = s.cell p) ∧
    (i = .push w ∨ i = .pushp w → s.resolve s.sp = none ∨ s.resolve w = none → s.SameCells t) ∧
    (i = .pop w → ∀ d : Nat, s.resolve w = some d → ∀ p : Nat, p ≠ d → t.cell p = s.cell p) ∧
    (i = .popp w → ∀ r d : Nat, s.resolve w = some r → s.resolve (s.cell r) = some d →
      ∀ p : Nat, p ≠ d → t.cell p = s.cell p) ∧
    (i = .pop w ∨ i = .popp w → s.resolve (s.sp + 1) = none ∨ s.resolve w = none → s.SameCells t) ∧
    (i = .pushp w ∨ i = .popp w → ∀ r : Nat, s.resolve w = some r → s.resolve (s.cell r) = none → s.SameCells t) ∧
    t.cfg = s.cfg ∧ t.spLimit = s.spLimit ∧ t.mode = s.mode ∧ t.out = s.out ∧ t.commands = s.commands ∧
    (t.status = s.status ∨ (s.SameCells t ∧ t.pc = s.pc ∧ ∃ k : Fault, t.status = .faulted k s.pc t.sp))

/-! ## The host interface (spec/20_memory.md R60 to R63, spec/70_reset_and_hazards.md) -/

/-- R236, R209, with R232, R233 and R234: a command during a run is refused; in Faulted it has no effect; in Idle and
Halted `set_pc` and `set_sp` write their register unchecked and `start` makes the status Running.  That the status comes
before every other check, for a `write_bytes` with `W` other than 8 and a value that does not fit too, is deduced (log
entry 7). -/
def Obligations.HostCommandsByStatus : Prop :=
  ∀ (s : State) (c : Command),
    (s.status = .running → command c s = .refused .commandWhileRunning) ∧
    (∀ (k : Fault) (p q : Int), s.status = .faulted k p q → command c s = .next s) ∧
    (s.status = .idle ∨ s.status = .halted →
      (∀ a : Int, command (.setPc a) s = .next { s with pc := a }) ∧
      (∀ a : Int, command (.setSp a) s = .next { s with sp := a }) ∧
      command .start s = .next { s with status := .running })

/-- R60, R61: a loader write in Idle or Halted.  One value is written by `write_cell` as by `write_cells`.  A sequence
with a value that does not fit in W bits is refused (92 D31, 93 I13), in range or not: that the values are checked before
the range is the model's choice (log entry 7).  When all fit: in range it writes the cells at the consecutive physical
indices, and no other, and raises `SP_LIMIT` to cover them; out of range it writes nothing and the status becomes
Faulted(OutOfCapacity, PC, SP); an empty one has no effect. -/
def Obligations.LoaderWritesCells : Prop :=
  ∀ (s : State) (a : Int) (vs : List Int), s.mem.wf → s.status = .idle ∨ s.status = .halted →
    (∀ v : Int, vs = [v] → command (.writeCell a v) s = command (.writeCells a vs) s) ∧
    (∀ v ∈ vs, ¬ Fits s.cfg.W v → command (.writeCells a vs) s = .refused .loaderValueTooWide) ∧
    (vs = [] → command (.writeCells a vs) s = .next s) ∧
    ((∀ v ∈ vs, Fits s.cfg.W v) → vs ≠ [] → a < 0 ∨ a + vs.length > s.cfg.CAP →
      command (.writeCells a vs) s = .next { s with status := .faulted .outOfCapacity s.pc s.sp }) ∧
    ((∀ v ∈ vs, Fits s.cfg.W v) → vs ≠ [] → 0 ≤ a → a + vs.length ≤ s.cfg.CAP →
      ∃ t : State, command (.writeCells a vs) s = .next t ∧
        (∀ (k : Nat) (v : Int), vs[k]? = some v → t.cell (a.toNat + k) = v) ∧
        (∀ q : Nat, (q : Int) < a ∨ a + vs.length ≤ q → t.cell q = s.cell q) ∧
        t.spLimit = max s.spLimit (a + vs.length) ∧ t = { s with mem := t.mem, spLimit := t.spLimit })

/-- R62: `write_bytes` with `W = 8` is `write_cells` of the sign-extended bytes; with any other `W` it is refused. -/
def Obligations.WriteBytesNeedsByteCells : Prop :=
  ∀ (s : State) (a : Int) (bs : List Byte), s.status = .idle ∨ s.status = .halted →
    (s.cfg.W = 8 → command (.writeBytes a bs) s = command (.writeCells a (bs.map fun b => b.toInt)) s ∧
      ∀ b ∈ bs, Fits 8 b.toInt) ∧
    (s.cfg.W ≠ 8 → command (.writeBytes a bs) s = .refused .writeBytesNeedsByteCells)

/-- R63: after any sequence of successful loader writes on a new instance, `SP_LIMIT` is one more than the highest
physical index written, or 0 if nothing has been written.  The writes stand in the model's command queue (log entry 4).
One `write_cell` and `write_bytes` are `write_cells` (`LoaderWritesCells`, `WriteBytesNeedsByteCells`). -/
def Obligations.SpLimitCoversEverythingLoaded : Prop :=
  ∀ (c : Config) (ws : List (Int × List Int)) (t : State),
    runSteps ws.length { State.initial c with commands := ws.map fun w => .writeCells w.1 w.2 } = .next t →
    t.status = .idle →
    (∀ w ∈ ws, w.2 ≠ [] → w.1 + w.2.length ≤ t.spLimit) ∧
    (t.spLimit = 0 ∨ ∃ w ∈ ws, w.2 ≠ [] ∧ t.spLimit = w.1 + w.2.length)

/-- R234: a `start` from Halted while `PC` still addresses the HALT halts again at once, with every register, the
memory and the output log as they were.  The `start` stands in the model's command queue (log entry 4). -/
def Obligations.RestartAtTheHaltHaltsAtOnce : Prop :=
  ∀ (s : State) (cs : List Command), s.status = .halted → s.commands = .start :: cs → fetchInstr s = .ok .halt →
    step s = .next { s with commands := cs, status := .running } ∧
    HaltsWithin 1 { s with commands := cs, status := .running } ∧
    run 1 { s with commands := cs, status := .running } = .next { s with commands := cs }

/-- R109, R243: the loop under fuel.  It always answers a state.  Where the status there is Running, nothing is a result,
and every state of the steps up to it was Running: the run did not end within the bound.  Where it is not Running, the run
has ended, by HALT or by a fault other than the loader's, its result is the tuple of R242 there, and more fuel changes
nothing, whatever commands the host has pending. -/
def Obligations.RunUnderFuelEndsWhereTheRunEnds : Prop :=
  ∀ (n : Nat) (s : State), s.status = .running → ∃ t : State, run n s = .next t ∧ t.commands = s.commands ∧
    (t.status = .running → resultOfRun n s = none ∧
      ∀ k ≤ n, ∃ u : State, runSteps k s = .next u ∧ u.status = .running) ∧
    (t.status ≠ .running →
      (t.status = .halted ∨ ∃ (k : Fault) (p q : Int), t.status = .faulted k p q ∧ k ≠ .outOfCapacity) ∧
      resultOfRun n s = some { status := t.status, mem := t.mem, out := t.out,
                               registers := { pc := t.pc, sp := t.sp, spLimit := t.spLimit, mode := t.mode } } ∧
      ∀ m ≥ n, run m s = .next t)

/-- R237: a run started with nothing loaded raises IllegalInstruction at its first step, for every `W` and `CAP` under
the default opcode table.  The first of the two steps takes the `start` from the model's queue (log entry 4). -/
def Obligations.StartWithNothingLoadedIsIllegal : Prop :=
  ∀ (W CAP : Nat), 8 ≤ W → 1 ≤ CAP →
    ∃ t : State,
      runSteps 2 { State.initial { W := W, CAP := CAP, OPC := Config.defaultOpcodes } with commands := [.start] } =
        .next t ∧ t.status = .faulted .illegalInstruction 0 0

/-- R36, R242: nothing is shown in Idle and during a run; in Halted, and after a fault a run can end with, the status
interface shows the four registers, and the result is the status, those registers, memory and the output log, all as they
are now; and the step of a running machine after which the status is Running no more leaves such a state.  Right after
that step this is what the run left.  That the present values are shown as the result also in a Halted state that an
accepted `set_pc`, `set_sp` or loader write has changed since is the model's choice (log entry 13); what the run itself
left is `resultOfRun` (`RunUnderFuelEndsWhereTheRunEnds`).  A loader's OutOfCapacity fault, which comes before a run
(R202), is left out: what is shown there is the model's choice too (log entry 13). -/
def Obligations.ResultIsShownOnceTheRunHasEnded : Prop :=
  ∀ s : State,
    (s.status = .idle ∨ s.status = .running → s.shownRegisters = none ∧ s.runResult = none) ∧
    (s.status = .halted ∨ (∃ (k : Fault) (p q : Int), s.status = .faulted k p q ∧ k ≠ .outOfCapacity) →
      s.shownRegisters = some { pc := s.pc, sp := s.sp, spLimit := s.spLimit, mode := s.mode } ∧
      s.runResult = some { status := s.status, mem := s.mem, out := s.out,
                           registers := { pc := s.pc, sp := s.sp, spLimit := s.spLimit, mode := s.mode } }) ∧
    (∀ t : State, s.status = .running → step s = .next t → t.status ≠ .running →
      t.status = .halted ∨ ∃ (k : Fault) (p q : Int), t.status = .faulted k p q ∧ k ≠ .outOfCapacity)
end

