-- ==== Sys2Proof/Laws/State.lean ====
section
/-! SUPPORT. One lemma per field per update of the state, so that no later proof unfolds a record update. -/

namespace Sys2Proof.Machine

variable (s : State)

/-! ## setCell -/

@[simp] theorem setCell_cfg (p : Nat) (v : Int) : (s.setCell p v).cfg = s.cfg := rfl
@[simp] theorem setCell_mem (p : Nat) (v : Int) : (s.setCell p v).mem = s.mem.write p v := rfl
@[simp] theorem setCell_pc (p : Nat) (v : Int) : (s.setCell p v).pc = s.pc := rfl
@[simp] theorem setCell_sp (p : Nat) (v : Int) : (s.setCell p v).sp = s.sp := rfl
@[simp] theorem setCell_spLimit (p : Nat) (v : Int) : (s.setCell p v).spLimit = s.spLimit := rfl
@[simp] theorem setCell_mode (p : Nat) (v : Int) : (s.setCell p v).mode = s.mode := rfl
@[simp] theorem setCell_status (p : Nat) (v : Int) : (s.setCell p v).status = s.status := rfl
@[simp] theorem setCell_out (p : Nat) (v : Int) : (s.setCell p v).out = s.out := rfl
@[simp] theorem setCell_commands (p : Nat) (v : Int) : (s.setCell p v).commands = s.commands := rfl
@[simp] theorem setCell_resolve (p : Nat) (v : Int) (b : Int) : (s.setCell p v).resolve b = s.resolve b := rfl

/-! ## setPc -/

@[simp] theorem setPc_cfg (a : Int) : (s.setPc a).cfg = s.cfg := rfl
@[simp] theorem setPc_mem (a : Int) : (s.setPc a).mem = s.mem := rfl
@[simp] theorem setPc_pc (a : Int) : (s.setPc a).pc = a := rfl
@[simp] theorem setPc_sp (a : Int) : (s.setPc a).sp = s.sp := rfl
@[simp] theorem setPc_spLimit (a : Int) : (s.setPc a).spLimit = s.spLimit := rfl
@[simp] theorem setPc_mode (a : Int) : (s.setPc a).mode = s.mode := rfl
@[simp] theorem setPc_status (a : Int) : (s.setPc a).status = s.status := rfl
@[simp] theorem setPc_out (a : Int) : (s.setPc a).out = s.out := rfl
@[simp] theorem setPc_commands (a : Int) : (s.setPc a).commands = s.commands := rfl
@[simp] theorem setPc_cell (a : Int) (q : Nat) : (s.setPc a).cell q = s.cell q := rfl
@[simp] theorem setPc_resolve (a : Int) (b : Int) : (s.setPc a).resolve b = s.resolve b := rfl

/-! ## setSp -/

@[simp] theorem setSp_cfg (a : Int) : (s.setSp a).cfg = s.cfg := rfl
@[simp] theorem setSp_mem (a : Int) : (s.setSp a).mem = s.mem := rfl
@[simp] theorem setSp_pc (a : Int) : (s.setSp a).pc = s.pc := rfl
@[simp] theorem setSp_sp (a : Int) : (s.setSp a).sp = a := rfl
@[simp] theorem setSp_spLimit (a : Int) : (s.setSp a).spLimit = s.spLimit := rfl
@[simp] theorem setSp_mode (a : Int) : (s.setSp a).mode = s.mode := rfl
@[simp] theorem setSp_status (a : Int) : (s.setSp a).status = s.status := rfl
@[simp] theorem setSp_out (a : Int) : (s.setSp a).out = s.out := rfl
@[simp] theorem setSp_commands (a : Int) : (s.setSp a).commands = s.commands := rfl
@[simp] theorem setSp_cell (a : Int) (q : Nat) : (s.setSp a).cell q = s.cell q := rfl
@[simp] theorem setSp_resolve (a : Int) (b : Int) : (s.setSp a).resolve b = s.resolve b := rfl

/-! ## setMode -/

@[simp] theorem setMode_cfg (k : Int) : (s.setMode k).cfg = s.cfg := rfl
@[simp] theorem setMode_mem (k : Int) : (s.setMode k).mem = s.mem := rfl
@[simp] theorem setMode_pc (k : Int) : (s.setMode k).pc = s.pc := rfl
@[simp] theorem setMode_sp (k : Int) : (s.setMode k).sp = s.sp := rfl
@[simp] theorem setMode_spLimit (k : Int) : (s.setMode k).spLimit = s.spLimit := rfl
@[simp] theorem setMode_mode (k : Int) : (s.setMode k).mode = k := rfl
@[simp] theorem setMode_status (k : Int) : (s.setMode k).status = s.status := rfl
@[simp] theorem setMode_out (k : Int) : (s.setMode k).out = s.out := rfl
@[simp] theorem setMode_commands (k : Int) : (s.setMode k).commands = s.commands := rfl
@[simp] theorem setMode_cell (k : Int) (q : Nat) : (s.setMode k).cell q = s.cell q := rfl

/-! ## setStatus -/

@[simp] theorem setStatus_cfg (x : Status) : (s.setStatus x).cfg = s.cfg := rfl
@[simp] theorem setStatus_mem (x : Status) : (s.setStatus x).mem = s.mem := rfl
@[simp] theorem setStatus_pc (x : Status) : (s.setStatus x).pc = s.pc := rfl
@[simp] theorem setStatus_sp (x : Status) : (s.setStatus x).sp = s.sp := rfl
@[simp] theorem setStatus_spLimit (x : Status) : (s.setStatus x).spLimit = s.spLimit := rfl
@[simp] theorem setStatus_mode (x : Status) : (s.setStatus x).mode = s.mode := rfl
@[simp] theorem setStatus_status (x : Status) : (s.setStatus x).status = x := rfl
@[simp] theorem setStatus_out (x : Status) : (s.setStatus x).out = s.out := rfl
@[simp] theorem setStatus_commands (x : Status) : (s.setStatus x).commands = s.commands := rfl
@[simp] theorem setStatus_cell (x : Status) (q : Nat) : (s.setStatus x).cell q = s.cell q := rfl
@[simp] theorem setStatus_resolve (x : Status) (b : Int) : (s.setStatus x).resolve b = s.resolve b := rfl

/-! ## emit -/

@[simp] theorem emit_cfg (r : OutRecord) : (s.emit r).cfg = s.cfg := rfl
@[simp] theorem emit_mem (r : OutRecord) : (s.emit r).mem = s.mem := rfl
@[simp] theorem emit_pc (r : OutRecord) : (s.emit r).pc = s.pc := rfl
@[simp] theorem emit_sp (r : OutRecord) : (s.emit r).sp = s.sp := rfl
@[simp] theorem emit_spLimit (r : OutRecord) : (s.emit r).spLimit = s.spLimit := rfl
@[simp] theorem emit_mode (r : OutRecord) : (s.emit r).mode = s.mode := rfl
@[simp] theorem emit_status (r : OutRecord) : (s.emit r).status = s.status := rfl
@[simp] theorem emit_out (r : OutRecord) : (s.emit r).out = s.out ++ [r] := rfl
@[simp] theorem emit_commands (r : OutRecord) : (s.emit r).commands = s.commands := rfl
@[simp] theorem emit_cell (r : OutRecord) (q : Nat) : (s.emit r).cell q = s.cell q := rfl
@[simp] theorem emit_resolve (r : OutRecord) (b : Int) : (s.emit r).resolve b = s.resolve b := rfl

/-! ## advance -/

@[simp] theorem advance_cfg (n : Nat) : (s.advance n).cfg = s.cfg := rfl
@[simp] theorem advance_mem (n : Nat) : (s.advance n).mem = s.mem := rfl
@[simp] theorem advance_pc (n : Nat) : (s.advance n).pc = s.pc + n := rfl
@[simp] theorem advance_sp (n : Nat) : (s.advance n).sp = s.sp := rfl
@[simp] theorem advance_spLimit (n : Nat) : (s.advance n).spLimit = s.spLimit := rfl
@[simp] theorem advance_mode (n : Nat) : (s.advance n).mode = s.mode := rfl
@[simp] theorem advance_status (n : Nat) : (s.advance n).status = s.status := rfl
@[simp] theorem advance_out (n : Nat) : (s.advance n).out = s.out := rfl
@[simp] theorem advance_commands (n : Nat) : (s.advance n).commands = s.commands := rfl
@[simp] theorem advance_cell (n : Nat) (q : Nat) : (s.advance n).cell q = s.cell q := rfl
@[simp] theorem advance_resolve (n : Nat) (b : Int) : (s.advance n).resolve b = s.resolve b := rfl

/-! ## faultWith -/

@[simp] theorem faultWith_cfg (k : Fault) : (s.faultWith k).cfg = s.cfg := rfl
@[simp] theorem faultWith_mem (k : Fault) : (s.faultWith k).mem = s.mem := rfl
@[simp] theorem faultWith_pc (k : Fault) : (s.faultWith k).pc = s.pc := rfl
@[simp] theorem faultWith_sp (k : Fault) : (s.faultWith k).sp = s.sp := rfl
@[simp] theorem faultWith_spLimit (k : Fault) : (s.faultWith k).spLimit = s.spLimit := rfl
@[simp] theorem faultWith_mode (k : Fault) : (s.faultWith k).mode = s.mode := rfl
@[simp] theorem faultWith_status (k : Fault) : (s.faultWith k).status = .faulted k s.pc s.sp := rfl
@[simp] theorem faultWith_out (k : Fault) : (s.faultWith k).out = s.out := rfl
@[simp] theorem faultWith_commands (k : Fault) : (s.faultWith k).commands = s.commands := rfl
@[simp] theorem faultWith_cell (k : Fault) (q : Nat) : (s.faultWith k).cell q = s.cell q := rfl
@[simp] theorem faultWith_resolve (k : Fault) (b : Int) : (s.faultWith k).resolve b = s.resolve b := rfl

/-! ## loaded -/

@[simp] theorem loaded_cfg (a : Int) (vs : List Int) : (s.loaded a vs).cfg = s.cfg := rfl
@[simp] theorem loaded_mem (a : Int) (vs : List Int) : (s.loaded a vs).mem = s.mem.writeAll a.toNat vs := rfl
@[simp] theorem loaded_pc (a : Int) (vs : List Int) : (s.loaded a vs).pc = s.pc := rfl
@[simp] theorem loaded_sp (a : Int) (vs : List Int) : (s.loaded a vs).sp = s.sp := rfl
@[simp] theorem loaded_spLimit (a : Int) (vs : List Int) : (s.loaded a vs).spLimit = max s.spLimit (a + vs.length) := rfl
@[simp] theorem loaded_mode (a : Int) (vs : List Int) : (s.loaded a vs).mode = s.mode := rfl
@[simp] theorem loaded_status (a : Int) (vs : List Int) : (s.loaded a vs).status = s.status := rfl
@[simp] theorem loaded_out (a : Int) (vs : List Int) : (s.loaded a vs).out = s.out := rfl
@[simp] theorem loaded_commands (a : Int) (vs : List Int) : (s.loaded a vs).commands = s.commands := rfl
@[simp] theorem loaded_resolve (a : Int) (vs : List Int) (b : Int) : (s.loaded a vs).resolve b = s.resolve b := rfl

/-! ## initial -/

@[simp] theorem initial_cfg (c : Config) : (State.initial c).cfg = c := rfl
@[simp] theorem initial_mem (c : Config) : (State.initial c).mem = [] := rfl
@[simp] theorem initial_pc (c : Config) : (State.initial c).pc = 0 := rfl
@[simp] theorem initial_sp (c : Config) : (State.initial c).sp = 0 := rfl
@[simp] theorem initial_spLimit (c : Config) : (State.initial c).spLimit = 0 := rfl
@[simp] theorem initial_mode (c : Config) : (State.initial c).mode = 1 := rfl
@[simp] theorem initial_status (c : Config) : (State.initial c).status = .idle := rfl
@[simp] theorem initial_out (c : Config) : (State.initial c).out = [] := rfl
@[simp] theorem initial_commands (c : Config) : (State.initial c).commands = [] := rfl

end Sys2Proof.Machine
end

