-- ==== Sys2Proof/Laws/Memory.lean ====
section
/-! SUPPORT. The memory array: read after write, and the canonical form that every memory operation keeps. -/

namespace Sys2Proof.Machine

namespace Memory

@[simp] theorem read_nil (p : Nat) : Memory.read [] p = 0 := rfl

/-- An index below every listed one reads 0. -/
theorem read_eq_zero_of_lt {m : Memory} {p : Nat} (h : ∀ e ∈ m, p < e.1) : Memory.read m p = 0 := by
  induction m with
  | nil => rfl
  | cons e m ih =>
    obtain ⟨q, v⟩ := e
    have hq : p < q := h (q, v) (by simp)
    have : p ≠ q := by omega
    simp [Memory.read, this, ih (fun e he => h e (by simp [he]))]

theorem wf_cons {q : Nat} {w : Int} {m : Memory} :
    Memory.wf ((q, w) :: m) ↔ (∀ e ∈ m, q < e.1) ∧ w ≠ 0 ∧ Memory.wf m := by
  simp only [Memory.wf, List.pairwise_cons, List.forall_mem_cons]
  tauto

/-- A write lists nothing but the written cell and what was listed before. -/
theorem mem_write {m : Memory} {p : Nat} {v : Int} {e : Nat × Int} (h : e ∈ Memory.write m p v) :
    e = (p, v) ∨ e ∈ m := by
  induction m with
  | nil => unfold Memory.write at h; split at h <;> simp_all
  | cons d m ih =>
    obtain ⟨q, w⟩ := d
    unfold Memory.write at h
    split_ifs at h
    · exact .inr h
    · exact List.mem_cons.1 h
    · exact .inr (List.mem_cons_of_mem _ h)
    · exact (List.mem_cons.1 h).imp id (List.mem_cons_of_mem _)
    · rcases List.mem_cons.1 h with h | h
      · exact .inr (h ▸ List.mem_cons_self)
      · exact (ih h).imp id (List.mem_cons_of_mem _)

/-- Every memory write keeps the canonical form. -/
theorem write_wf {m : Memory} (h : m.wf) (p : Nat) (v : Int) : (Memory.write m p v).wf := by
  induction m with
  | nil => unfold Memory.write; split <;> simp_all [Memory.wf]
  | cons e m ih =>
    obtain ⟨q, w⟩ := e
    obtain ⟨hq, hw, hm⟩ := wf_cons.1 h
    unfold Memory.write
    split_ifs with h1 h2 h3 h4
    · exact h
    · exact wf_cons.2 ⟨by simpa [h1] using fun a b hab => lt_trans h1 (hq (a, b) hab), h2, h⟩
    · exact hm
    · exact wf_cons.2 ⟨fun e he => h3 ▸ hq e he, h4, hm⟩
    · exact wf_cons.2 ⟨fun e he => (mem_write he).elim (fun h => by subst h; omega) (hq e), hw, ih hm⟩

/-- Read after write (R67): the written cell holds the value, every other cell is as before. -/
theorem read_write {m : Memory} (h : m.wf) (p q : Nat) (v : Int) :
    (Memory.write m p v).read q = if q = p then v else m.read q := by
  induction m with
  | nil => unfold Memory.write; split <;> simp_all [Memory.read]
  | cons e m ih =>
    obtain ⟨r, w⟩ := e
    obtain ⟨hr, hw, hm⟩ := wf_cons.1 h
    have hz : ∀ x, x ≤ r → Memory.read m x = 0 := fun x hx =>
      read_eq_zero_of_lt fun e he => lt_of_le_of_lt hx (hr e he)
    rcases lt_trichotomy p r with hlt | rfl | hgt
    · by_cases hv : v = 0 <;> by_cases hq : q = p
      · simp [Memory.write, Memory.read, hlt, hlt.ne, hv, hq, hz p hlt.le]
      · simp [Memory.write, hlt, hv, hq]
      · simp [Memory.write, Memory.read, hlt, hv, hq]
      · simp [Memory.write, Memory.read, hlt, hv, hq]
    · by_cases hv : v = 0 <;> by_cases hq : q = p
      · simp [Memory.write, hv, hq, hz p le_rfl]
      · simp [Memory.write, Memory.read, hv, hq]
      · simp [Memory.write, Memory.read, hv, hq]
      · simp [Memory.write, Memory.read, hv, hq]
    · by_cases hq : q = r
      · simp [Memory.write, Memory.read, hgt.not_gt, hgt.ne', hgt.ne, hq]
      · simp [Memory.write, Memory.read, hgt.not_gt, hgt.ne', hq, ih hm]

/-- Writing the value a cell has leaves memory as it is. -/
theorem write_read_self {m : Memory} (h : m.wf) (p : Nat) : m.write p (m.read p) = m := by
  induction m with
  | nil => simp [Memory.write]
  | cons e m ih =>
    obtain ⟨q, v⟩ := e
    obtain ⟨hr, hw, hm⟩ := wf_cons.1 h
    unfold Memory.write
    rcases lt_trichotomy p q with h1 | rfl | h1
    · have h0 : Memory.read ((q, v) :: m) p = 0 := read_eq_zero_of_lt fun e he =>
        (List.mem_cons.1 he).elim (fun h => h ▸ h1) fun he => lt_trans h1 (hr e he)
      simp [h1, h0]
    · simp [Memory.read, hw]
    · simp [h1.not_gt, h1.ne', Memory.read, ih hm]

/-- A write keeps every listed cell in range when the written one is. -/
theorem write_inRange {c : Config} {m : Memory} (h : m.inRange c) {p : Nat} {v : Int} (hp : p < c.CAP)
    (hv : Fits c.W v) : (Memory.write m p v).inRange c :=
  fun e he => (mem_write he).elim (fun h => h ▸ ⟨hp, hv⟩) (h e)

/-- The loader's writes keep the canonical form. -/
theorem writeAll_wf {m : Memory} (h : m.wf) (p : Nat) (vs : List Int) : (m.writeAll p vs).wf := by
  induction vs generalizing m p with
  | nil => exact h
  | cons v vs ih => exact ih (write_wf h p v) (p + 1)

/-- What reads after the loader's writes give: the written cells in order, every other cell as before (R61, R67). -/
theorem read_writeAll {m : Memory} (h : m.wf) (a : Nat) (vs : List Int) :
    (∀ (k : Nat) (v : Int), vs[k]? = some v → (m.writeAll a vs).read (a + k) = v) ∧
      ∀ q, q < a ∨ a + vs.length ≤ q → (m.writeAll a vs).read q = m.read q := by
  induction vs generalizing m a with
  | nil => exact ⟨fun k v hk => by simp at hk, fun q _ => rfl⟩
  | cons w vs ih =>
    obtain ⟨h1, h2⟩ := ih (write_wf h a w) (a + 1)
    refine ⟨fun k v hk => ?_, fun q hq => ?_⟩
    · cases k with
      | zero =>
        refine (h2 a (.inl (by omega))).trans ?_
        rw [read_write h, if_pos rfl]
        simpa using hk
      | succ k =>
        have := h1 k v (by simpa using hk)
        rwa [Nat.add_assoc, Nat.add_comm 1 k] at this
    · simp only [List.length_cons] at hq
      refine (h2 q (by omega)).trans ?_
      rw [read_write h, if_neg (by omega)]

/-- The loader's writes keep every listed cell in range. -/
theorem writeAll_inRange {c : Config} {m : Memory} (h : m.inRange c) {p : Nat} {vs : List Int}
    (hp : p + vs.length ≤ c.CAP) (hv : ∀ v ∈ vs, Fits c.W v) : (m.writeAll p vs).inRange c := by
  induction vs generalizing m p with
  | nil => exact h
  | cons v vs ih =>
    simp only [List.length_cons] at hp
    exact ih (write_inRange h (by omega) (hv v (by simp))) (by omega) (fun w hw => hv w (by simp [hw]))

end Memory

/-- 0 is a W-bit value. -/
theorem fits_zero (W : Nat) : Fits W 0 := by
  have := Nat.two_pow_pos (W - 1)
  simp only [Fits, minCell, maxCell]
  omega

/-- Every cell of an in-range memory is a W-bit value (R30). -/
theorem Memory.fits_read {c : Config} {m : Memory} (h : m.inRange c) (p : Nat) : Fits c.W (m.read p) := by
  induction m with
  | nil => exact fits_zero c.W
  | cons e m ih =>
    obtain ⟨q, w⟩ := e
    unfold Memory.read
    split
    · exact (h (q, w) (by simp)).2
    · exact ih fun e he => h e (by simp [he])

/-- Read after write on the state (R67). -/
theorem setCell_cell {s : State} (h : s.mem.wf) (p q : Nat) (v : Int) :
    (s.setCell p v).cell q = if q = p then v else s.cell q := Memory.read_write h p q v

end Sys2Proof.Machine
end

