-- ==== Sys2Proof/Laws/Arith.lean ====
section
/-! SUPPORT. Int arithmetic: wrap stays in range and is congruent, a value in range is its own wrap, the quotient of
DIV stays in range outside the two corners. -/

namespace Sys2Proof.Machine

theorem two_pow_split {W : Nat} (hW : 1 ≤ W) : 2 ^ W = 2 * 2 ^ (W - 1) := by
  obtain ⟨n, rfl⟩ : ∃ n, W = n + 1 := ⟨W - 1, by omega⟩
  simp [pow_succ, Nat.mul_comm]

/-- `wrap_W(v)` lies in the W-bit signed range (R10). -/
theorem fits_wrap {W : Nat} (hW : 1 ≤ W) (v : Int) : Fits W (wrap W v) := by
  have hs := two_pow_split hW
  have hp := Nat.two_pow_pos (W - 1)
  have h1 := Int.le_bmod (x := v) (m := 2 ^ W) (Nat.two_pow_pos W)
  have h2 := Int.bmod_lt (x := v) (m := 2 ^ W) (Nat.two_pow_pos W)
  simp only [Fits, minCell, maxCell, wrap]
  rw [hs] at h1 h2 ⊢
  push_cast at *
  omega

/-- `wrap_W(v)` is congruent to `v` modulo `2^W` (R10). -/
theorem wrap_emod (W : Nat) (v : Int) : wrap W v % (2 ^ W : Nat) = v % (2 ^ W : Nat) := Int.bmod_emod

/-- A value in range is its own wrap (R10). -/
theorem wrap_of_fits {W : Nat} (hW : 1 ≤ W) {v : Int} (h : Fits W v) : wrap W v = v := by
  have hs := two_pow_split hW
  simp only [Fits, minCell, maxCell] at h
  refine Int.bmod_eq_of_le ?_ ?_ <;> rw [hs] <;> push_cast at * <;> omega

/-- Outside the corner `MIN_W / -1`, the truncated quotient of two cells is a cell (R124). -/
theorem fits_truncDiv {W : Nat} {x y : Int} (hx : Fits W x) (hy : y ≠ 0) (h : ¬ (x = minCell W ∧ y = -1)) :
    Fits W (truncDiv x y) := by
  have hle : (Int.tdiv x y).natAbs ≤ x.natAbs := by
    rw [Int.natAbs_tdiv]; exact Nat.div_le_self _ _
  simp only [Fits, minCell, maxCell, truncDiv] at *
  by_cases hy1 : y = -1
  · subst hy1
    have h1 : Int.tdiv x (-1) = -x := by rw [Int.tdiv_neg, Int.tdiv_one]
    rw [h1]
    omega
  · by_cases hmin : x = -((2 ^ (W - 1) : Nat) : Int)
    · by_cases hy0 : 0 < y
      · have : Int.tdiv x y ≤ 0 := by
          rw [hmin, Int.neg_tdiv]
          have := Int.tdiv_nonneg (a := ((2 ^ (W - 1) : Nat) : Int)) (b := y) (by omega) (by omega)
          omega
        push_cast at *
        omega
      · have h2 : 2 ≤ y.natAbs := by omega
        have hlt : (Int.tdiv x y).natAbs < x.natAbs := by
          rw [Int.natAbs_tdiv]
          have := Nat.two_pow_pos (W - 1)
          exact Nat.div_lt_self (by omega) h2
        push_cast at *
        omega
    · push_cast at *
      omega

/-- The low byte of a non-zero byte-wide cell is not zero (R174). -/
theorem lowByte_ne_zero {v : Int} (h : Fits 8 v) (hv : v ≠ 0) : lowByte v ≠ 0 := by
  intro h0
  have := congrArg BitVec.toInt h0
  simp only [lowByte, BitVec.toInt_ofInt] at this
  rw [Int.bmod_eq_of_le] at this
  · exact hv (by simpa using this)
  · simp only [Fits, minCell] at h; norm_num at *; omega
  · simp only [Fits, maxCell] at h; norm_num at *; omega

/-- The cell of a byte is a byte-wide cell (R62). -/
theorem fits_byteCell (b : Byte) : Fits 8 (byteCell b) := by
  have h1 := BitVec.le_toInt b
  have h2 := BitVec.toInt_lt (x := b)
  simp only [Fits, minCell, maxCell, byteCell]
  norm_num at *
  omega

end Sys2Proof.Machine
end

