-- ==== Sys2Proof/Laws/Decode.lean ====
section
/-! SUPPORT. The parts of the decoder: the opcode lookup undoes the opcode assignment, and the operands of an
assembled instruction are its words. -/

namespace Sys2Proof

theorem Mnemonic.mem_all (m : Mnemonic) : m ∈ Mnemonic.all := by cases m <;> decide

theorem Mnemonic.index_lt (m : Mnemonic) : m.index < 29 := by cases m <;> decide

theorem Mnemonic.index_inj {m n : Mnemonic} (h : m.index = n.index) : m = n := by
  revert h; cases m <;> cases n <;> first | exact fun _ => rfl | exact fun h => absurd h (by decide)

variable {c : Config}

/-- The opcode value of a mnemonic is an entry of the assignment. -/
theorem Config.opcodeOf_eq (h : c.wf) (m : Mnemonic) :
    ∃ hm : m.index < c.OPC.length, c.opcodeOf m = c.OPC[m.index] := by
  have hm : m.index < c.OPC.length := by rw [h.2.2.1]; exact m.index_lt
  exact ⟨hm, by simp [Config.opcodeOf, List.getD_eq_getElem?_getD, hm]⟩

/-- The assignment is injective (R8). -/
theorem Config.opcodeOf_inj (h : c.wf) {m n : Mnemonic} (hmn : c.opcodeOf m = c.opcodeOf n) : m = n := by
  obtain ⟨hm, em⟩ := c.opcodeOf_eq h m
  obtain ⟨hn, en⟩ := c.opcodeOf_eq h n
  rw [em, en] at hmn
  exact Mnemonic.index_inj ((List.Nodup.getElem_inj_iff h.2.2.2.1).1 hmn)

/-- Every opcode value is a W-bit value (R8). -/
theorem Config.fits_opcodeOf (h : c.wf) (m : Mnemonic) : Fits c.W (c.opcodeOf m) := by
  obtain ⟨hm, em⟩ := c.opcodeOf_eq h m
  rw [em]
  exact h.2.2.2.2 _ (List.getElem_mem hm)

/-- The opcode lookup finds the mnemonic of its own opcode value (R83). -/
theorem Config.mnemonicOf_opcodeOf (h : c.wf) (m : Mnemonic) : c.mnemonicOf (c.opcodeOf m) = some m := by
  have hs : (c.mnemonicOf (c.opcodeOf m)).isSome := by
    simp only [Config.mnemonicOf, List.find?_isSome]
    exact ⟨m, m.mem_all, by simp⟩
  obtain ⟨n, hn⟩ := Option.isSome_iff_exists.1 hs
  have he : c.opcodeOf n = c.opcodeOf m := by simpa using List.find?_some hn
  rw [hn, Config.opcodeOf_inj h he]

/-- A word the opcode lookup finds is the opcode value of what it finds (R83). -/
theorem Config.opcodeOf_of_mnemonicOf {w : Int} {m : Mnemonic} (h : c.mnemonicOf w = some m) : c.opcodeOf m = w := by
  simpa using List.find?_some h

end Sys2Proof
end

