-- ==== Sys2Proof/Laws/Ops.lean ====
section
/-! SUPPORT. The shared operations: what the resolver, the operand forms and fault entry can answer. -/

namespace Sys2Proof.Machine

variable {s : State}

/-- When `Resolve` succeeds, and with which index (R53). -/
theorem resolve_eq_some {a : Int} {p : Nat} :
    s.resolve a = some p ↔ (0 ≤ a ∧ a < s.cfg.CAP) ∧ (p : Int) = a * s.mode ∧ p < s.cfg.CAP := by
  unfold State.resolve
  split_ifs with h1 h2
  · simp only [Option.some.injEq]; omega
  · simp only [false_iff]; omega
  · simp only [false_iff]; omega

theorem resolve_lt {a : Int} {p : Nat} (h : s.resolve a = some p) : p < s.cfg.CAP := (resolve_eq_some.1 h).2.2

@[simp] theorem raise_eq (k : Fault) : raise k s = .next (s.faultWith k) := rfl

/-- A resolving rule whose resolution succeeds is its rest at the index. -/
theorem resolving_some {a : Int} {p : Nat} (h : s.resolve a = some p) (rest : Nat → Outcome) :
    resolving s a rest = rest p := by simp [resolving, h]

/-- A resolving rule whose resolution fails raises InvalidAddress in the state it has reached. -/
theorem resolving_none {a : Int} (h : s.resolve a = none) (rest : Nat → Outcome) :
    resolving s a rest = .next (s.faultWith .invalidAddress) := by simp [resolving, h]

theorem withAddr_some {w : Int} {p : Nat} (h : s.resolve w = some p) (rest : Nat → Outcome) :
    withAddr s w rest = rest p := resolving_some h rest

theorem withAddr_none {w : Int} (h : s.resolve w = none) (rest : Nat → Outcome) :
    withAddr s w rest = .next (s.faultWith .invalidAddress) := resolving_none h rest

theorem withPtr_some {w : Int} {r p : Nat} (h1 : s.resolve w = some r) (h2 : s.resolve (s.cell r) = some p)
    (rest : Nat → Outcome) : withPtr s w rest = rest p := by
  simp [withPtr, resolving_some h1, resolving_some h2]

theorem withPtr_none {w : Int} (h : s.resolve w = none) (rest : Nat → Outcome) :
    withPtr s w rest = .next (s.faultWith .invalidAddress) := resolving_none h _

theorem withPtr_some_none {w : Int} {r : Nat} (h1 : s.resolve w = some r) (h2 : s.resolve (s.cell r) = none)
    (rest : Nat → Outcome) : withPtr s w rest = .next (s.faultWith .invalidAddress) := by
  simp [withPtr, resolving_some h1, resolving_none h2]

theorem withStackTop_some {p : Nat} (h : s.resolve s.sp = some p) (rest : Nat → Outcome) :
    withStackTop s rest = rest p := resolving_some h rest

theorem withStackTop_none (h : s.resolve s.sp = none) (rest : Nat → Outcome) :
    withStackTop s rest = .next (s.faultWith .invalidAddress) := resolving_none h rest

/-- `Resolve` succeeds exactly when both bounds hold (R53). -/
theorem resolve_isSome {a : Int} :
    (s.resolve a).isSome ↔ (0 ≤ a ∧ a < s.cfg.CAP) ∧ 0 ≤ a * s.mode ∧ a * s.mode < s.cfg.CAP := by
  rw [Option.isSome_iff_exists]
  constructor
  · rintro ⟨p, hp⟩
    rw [resolve_eq_some] at hp
    omega
  · exact fun h => ⟨(a * s.mode).toNat, resolve_eq_some.2 (by omega)⟩

/-- Everything a rule with an address operand can answer. -/
theorem withAddr_cases {a : Int} {rest : Nat → Outcome} {t : State} (h : withAddr s a rest = .next t) :
    (s.resolve a = none ∧ t = s.faultWith .invalidAddress) ∨ ∃ p, s.resolve a = some p ∧ rest p = .next t := by
  cases ha : s.resolve a with
  | none =>
    rw [withAddr_none ha] at h
    cases h
    exact .inl ⟨rfl, rfl⟩
  | some p => exact .inr ⟨p, rfl, by rwa [withAddr_some ha] at h⟩

/-- Everything a rule with a pointer operand can answer. -/
theorem withPtr_cases {a : Int} {rest : Nat → Outcome} {t : State} (h : withPtr s a rest = .next t) :
    t = s.faultWith .invalidAddress ∨
      ∃ r p, s.resolve a = some r ∧ s.resolve (s.cell r) = some p ∧ rest p = .next t := by
  rcases withAddr_cases (rest := fun r => resolving s (s.cell r) rest) h with ⟨_, h⟩ | ⟨r, hr, h⟩
  · exact .inl h
  · rcases withAddr_cases h with ⟨_, h⟩ | ⟨p, hp, h⟩
    · exact .inl h
    · exact .inr ⟨r, p, hr, hp, h⟩

/-! The operand forms once more, as one rule each: whatever holds of the fault and of every answer of the rest holds
of the whole. -/

section Answers
variable {P : State → Prop} {rest : Nat → Outcome}

theorem resolving_answers {a : Int} (hf : P (s.faultWith .invalidAddress))
    (hr : ∀ p, s.resolve a = some p → ∃ t, rest p = .next t ∧ P t) : ∃ t, resolving s a rest = .next t ∧ P t := by
  cases h : s.resolve a with
  | none => exact ⟨_, resolving_none h rest, hf⟩
  | some p => simpa [resolving_some h] using hr p h

theorem withAddr_answers {w : Int} (hf : P (s.faultWith .invalidAddress))
    (hr : ∀ p, s.resolve w = some p → ∃ t, rest p = .next t ∧ P t) : ∃ t, withAddr s w rest = .next t ∧ P t :=
  resolving_answers hf hr

theorem withPtr_answers {w : Int} (hf : P (s.faultWith .invalidAddress))
    (hr : ∀ r p, s.resolve w = some r → s.resolve (s.cell r) = some p → ∃ t, rest p = .next t ∧ P t) :
    ∃ t, withPtr s w rest = .next t ∧ P t :=
  resolving_answers hf fun r h1 => resolving_answers hf fun p h2 => hr r p h1 h2

theorem withStackTop_answers (hf : P (s.faultWith .invalidAddress))
    (hr : ∀ p, s.resolve s.sp = some p → ∃ t, rest p = .next t ∧ P t) : ∃ t, withStackTop s rest = .next t ∧ P t :=
  resolving_answers hf hr

end Answers

/-- What a scan that finds a terminator answers: its bytes are the low bytes of non-zero cells (R174). -/
theorem scanString_nonzero {m : Memory} {bs : List Byte} (hm : ∀ p, Fits 8 (m.read p)) :
    ∀ {n p : Nat}, m.scanString n p = some bs → 0 ∉ bs := by
  intro n
  induction n generalizing bs with
  | zero => intro p h; simp [Memory.scanString] at h
  | succ n ih =>
    intro p h
    unfold Memory.scanString at h
    split_ifs at h with h0
    · obtain rfl : [] = bs := by simpa using h
      simp
    · obtain ⟨cs, hcs, rfl⟩ := Option.map_eq_some_iff.1 h
      simp only [List.mem_cons, not_or]
      exact ⟨(lowByte_ne_zero (hm p) h0).symm, ih hcs⟩

/-- A scan that meets its first zero cell `n` cells on, before it runs out, gives the bytes of the `n` cells (R174). -/
theorem scanString_eq_some (m : Memory) : ∀ {n p k : Nat}, n < k → (∀ j < n, m.read (p + j) ≠ 0) →
    m.read (p + n) = 0 → m.scanString k p = some ((List.range n).map fun j => lowByte (m.read (p + j))) := by
  intro n
  induction n with
  | zero =>
    intro p k hk _ h0
    obtain ⟨k, rfl⟩ : ∃ k', k = k' + 1 := ⟨k - 1, by omega⟩
    have h0 : m.read p = 0 := h0
    simp [Memory.scanString, h0]
  | succ n ih =>
    intro p k hk hn h0
    obtain ⟨k, rfl⟩ : ∃ k', k = k' + 1 := ⟨k - 1, by omega⟩
    have hs : ∀ j, p + 1 + j = p + (j + 1) := fun j => by omega
    have h1 : m.read p ≠ 0 := hn 0 (by omega)
    have h2 := ih (p := p + 1) (k := k) (by omega) (fun j hj => by rw [hs]; exact hn (j + 1) (by omega))
      (by rw [hs]; exact h0)
    simp only [Memory.scanString, if_neg h1, h2, Option.map_some, List.range_succ_eq_map, List.map_cons, List.map_map]
    simp [Function.comp_def, hs]

/-- A scan that meets no zero cell runs out (R174). -/
theorem scanString_eq_none (m : Memory) : ∀ {k p : Nat}, (∀ j < k, m.read (p + j) ≠ 0) → m.scanString k p = none := by
  intro k
  induction k with
  | zero => intro p _; rfl
  | succ k ih =>
    intro p h
    have hs : ∀ j, p + 1 + j = p + (j + 1) := fun j => by omega
    have h1 : m.read p ≠ 0 := h 0 (by omega)
    have h2 := ih (p := p + 1) fun j hj => by rw [hs]; exact h (j + 1) (by omega)
    simp [Memory.scanString, h1, h2]

end Sys2Proof.Machine
end

