-- ==== Sys2Proof/Laws/PerInstr.lean ====
section
/-! SUPPORT. The per-instruction family `Assembles`: an instruction is assembled from its own operands, whatever words
follow them, and has as many operands as its width leaves room for (spec/30_encoding.md R81, R84). -/

namespace Sys2Proof.Laws.Assembles

/-- Assembling the operands of `i` under its mnemonic gives `i` back; the number of operands is the width less the
opcode word; and `i` is well formed exactly when all its operands fit. -/
def Statement (i : Instr) : Prop :=
  (∀ rest, i.mnemonic.instr (i.operands ++ rest) = i) ∧ i.operands.length = i.mnemonic.width - 1 ∧
    ∀ W, i.wellFormed W = true ↔ ∀ w ∈ i.operands, Fits W w

theorem add (dest src : Int) : Statement (.add dest src) := ⟨fun _ => rfl, rfl, fun W => by simp [Instr.wellFormed, Instr.operands]⟩
theorem sub (dest src : Int) : Statement (.sub dest src) := ⟨fun _ => rfl, rfl, fun W => by simp [Instr.wellFormed, Instr.operands]⟩
theorem mul (dest src : Int) : Statement (.mul dest src) := ⟨fun _ => rfl, rfl, fun W => by simp [Instr.wellFormed, Instr.operands]⟩
theorem div (dest src : Int) : Statement (.div dest src) := ⟨fun _ => rfl, rfl, fun W => by simp [Instr.wellFormed, Instr.operands]⟩
theorem move (dest src : Int) : Statement (.move dest src) := ⟨fun _ => rfl, rfl, fun W => by simp [Instr.wellFormed, Instr.operands]⟩
theorem load (dest imm : Int) : Statement (.load dest imm) := ⟨fun _ => rfl, rfl, fun W => by simp [Instr.wellFormed, Instr.operands]⟩
theorem store (ptr src : Int) : Statement (.store ptr src) := ⟨fun _ => rfl, rfl, fun W => by simp [Instr.wellFormed, Instr.operands]⟩
theorem storep (destPtr srcPtr : Int) : Statement (.storep destPtr srcPtr) := ⟨fun _ => rfl, rfl, fun W => by simp [Instr.wellFormed, Instr.operands]⟩
theorem jlt (a b target : Int) : Statement (.jlt a b target) := ⟨fun _ => rfl, rfl, fun W => by simp [Instr.wellFormed, Instr.operands]⟩
theorem jle (a b target : Int) : Statement (.jle a b target) := ⟨fun _ => rfl, rfl, fun W => by simp [Instr.wellFormed, Instr.operands]⟩
theorem jge (a b target : Int) : Statement (.jge a b target) := ⟨fun _ => rfl, rfl, fun W => by simp [Instr.wellFormed, Instr.operands]⟩
theorem jgt (a b target : Int) : Statement (.jgt a b target) := ⟨fun _ => rfl, rfl, fun W => by simp [Instr.wellFormed, Instr.operands]⟩
theorem jmp (unused1 unused2 target : Int) : Statement (.jmp unused1 unused2 target) := ⟨fun _ => rfl, rfl, fun W => by simp [Instr.wellFormed, Instr.operands]⟩
theorem rjlt (a b offset : Int) : Statement (.rjlt a b offset) := ⟨fun _ => rfl, rfl, fun W => by simp [Instr.wellFormed, Instr.operands]⟩
theorem rjle (a b offset : Int) : Statement (.rjle a b offset) := ⟨fun _ => rfl, rfl, fun W => by simp [Instr.wellFormed, Instr.operands]⟩
theorem rjge (a b offset : Int) : Statement (.rjge a b offset) := ⟨fun _ => rfl, rfl, fun W => by simp [Instr.wellFormed, Instr.operands]⟩
theorem rjgt (a b offset : Int) : Statement (.rjgt a b offset) := ⟨fun _ => rfl, rfl, fun W => by simp [Instr.wellFormed, Instr.operands]⟩
theorem rjmp (unused1 unused2 offset : Int) : Statement (.rjmp unused1 unused2 offset) := ⟨fun _ => rfl, rfl, fun W => by simp [Instr.wellFormed, Instr.operands]⟩
theorem incr (addr : Int) : Statement (.incr addr) := ⟨fun _ => rfl, rfl, fun W => by simp [Instr.wellFormed, Instr.operands]⟩
theorem decr (addr : Int) : Statement (.decr addr) := ⟨fun _ => rfl, rfl, fun W => by simp [Instr.wellFormed, Instr.operands]⟩
theorem print (addr : Int) : Statement (.print addr) := ⟨fun _ => rfl, rfl, fun W => by simp [Instr.wellFormed, Instr.operands]⟩
theorem printc (addr : Int) : Statement (.printc addr) := ⟨fun _ => rfl, rfl, fun W => by simp [Instr.wellFormed, Instr.operands]⟩
theorem prints (addr : Int) : Statement (.prints addr) := ⟨fun _ => rfl, rfl, fun W => by simp [Instr.wellFormed, Instr.operands]⟩
theorem push (addr : Int) : Statement (.push addr) := ⟨fun _ => rfl, rfl, fun W => by simp [Instr.wellFormed, Instr.operands]⟩
theorem pushp (ptr : Int) : Statement (.pushp ptr) := ⟨fun _ => rfl, rfl, fun W => by simp [Instr.wellFormed, Instr.operands]⟩
theorem pop (addr : Int) : Statement (.pop addr) := ⟨fun _ => rfl, rfl, fun W => by simp [Instr.wellFormed, Instr.operands]⟩
theorem popp (ptr : Int) : Statement (.popp ptr) := ⟨fun _ => rfl, rfl, fun W => by simp [Instr.wellFormed, Instr.operands]⟩
theorem mode (imm : Int) : Statement (.mode imm) := ⟨fun _ => rfl, rfl, fun W => by simp [Instr.wellFormed, Instr.operands]⟩
theorem halt : Statement (.halt) := ⟨fun _ => rfl, rfl, fun W => by simp [Instr.wellFormed, Instr.operands]⟩

/-- The family over all instructions. -/
theorem all (i : Instr) : Statement i := by
  cases i with
  | add x y => exact Assembles.add x y
  | sub x y => exact Assembles.sub x y
  | mul x y => exact Assembles.mul x y
  | div x y => exact Assembles.div x y
  | move x y => exact Assembles.move x y
  | load x y => exact Assembles.load x y
  | store x y => exact Assembles.store x y
  | storep x y => exact Assembles.storep x y
  | jlt x y z => exact Assembles.jlt x y z
  | jle x y z => exact Assembles.jle x y z
  | jge x y z => exact Assembles.jge x y z
  | jgt x y z => exact Assembles.jgt x y z
  | jmp x y z => exact Assembles.jmp x y z
  | rjlt x y z => exact Assembles.rjlt x y z
  | rjle x y z => exact Assembles.rjle x y z
  | rjge x y z => exact Assembles.rjge x y z
  | rjgt x y z => exact Assembles.rjgt x y z
  | rjmp x y z => exact Assembles.rjmp x y z
  | incr x => exact Assembles.incr x
  | decr x => exact Assembles.decr x
  | print x => exact Assembles.print x
  | printc x => exact Assembles.printc x
  | prints x => exact Assembles.prints x
  | push x => exact Assembles.push x
  | pushp x => exact Assembles.pushp x
  | pop x => exact Assembles.pop x
  | popp x => exact Assembles.popp x
  | mode x => exact Assembles.mode x
  | halt => exact Assembles.halt

end Sys2Proof.Laws.Assembles
end

