-- ==== Sys2Proof/Laws/Effect.lean ====
section
/-! SUPPORT. Said once: everything the execute phase can do.  `exec` always answers a next state, and that state is one
of the ten shapes of `Effect` (spec/40_dispatch.md R102, R106, R107). -/

namespace Sys2Proof.Machine

/-- The instructions that write one cell, the stack instructions apart. -/
def cellWriters : List Mnemonic := [.add, .sub, .mul, .div, .move, .load, .store, .storep, .incr, .decr]

/-- The ten shapes of a step's execute phase. -/
inductive Effect (i : Instr) (s : State) : State → Prop where
  /-- A fatal condition with nothing done before it; OutOfCapacity is the loader's alone (R200, R202). -/
  | fault (k : Fault) (hk : k ≠ .outOfCapacity) : Effect i s (s.faultWith k)
  /-- A pop whose accesses fault after the increment of `SP` (R185, R186). -/
  | popFault (hi : i.mnemonic = .pop ∨ i.mnemonic = .popp) (hsp : s.sp < s.cfg.CAP) :
      Effect i s ((s.setSp (s.sp + 1)).faultWith .invalidAddress)
  /-- One cell written, then sequential flow. -/
  | cell (d : Nat) (v : Int) (hi : i.mnemonic ∈ cellWriters) (hd : d < s.cfg.CAP)
      (hv : s.cfg.wf → s.mem.inRange s.cfg → i.wellFormed s.cfg.W = true → Fits s.cfg.W v) :
      Effect i s ((s.setCell d v).advance i.mnemonic.width)
  /-- A jump taken, to a target word or by an offset word (R141, R142). -/
  | jump (a : Int) (hi : i.mnemonic.width = 4)
      (ha : i.wellFormed s.cfg.W = true → Fits s.cfg.W a ∨ Fits s.cfg.W (a - s.pc)) : Effect i s (s.setPc a)
  /-- Nothing but sequential flow: a jump not taken. -/
  | sequential : Effect i s (s.advance i.mnemonic.width)
  /-- One output record. -/
  | emit (r : OutRecord) (hi : i.mnemonic = .print ∨ i.mnemonic = .printc ∨ i.mnemonic = .prints)
      (ha : i.operands = [r.addr])
      (hr : s.mem.inRange s.cfg → i.wellFormed s.cfg.W = true → r.Valid s.cfg.W) :
      Effect i s ((s.emit r).advance 2)
  /-- A push (R183, R184). -/
  | push (d : Nat) (v : Int) (hi : i.mnemonic = .push ∨ i.mnemonic = .pushp) (hsp : s.spLimit ≤ s.sp)
      (hd : s.resolve s.sp = some d) (hv : s.mem.inRange s.cfg → Fits s.cfg.W v) :
      Effect i s (((s.setCell d v).setSp (s.sp - 1)).advance 2)
  /-- A pop (R185, R186). -/
  | pop (d : Nat) (v : Int) (hi : i.mnemonic = .pop ∨ i.mnemonic = .popp) (hsp : s.sp < s.cfg.CAP)
      (hd : d < s.cfg.CAP) (hv : s.mem.inRange s.cfg → Fits s.cfg.W v) :
      Effect i s (((s.setSp (s.sp + 1)).setCell d v).advance 2)
  /-- The MODE instruction (R190). -/
  | mode (k : Int) (hi : i = .mode k) : Effect i s ((s.setMode k).advance 2)
  /-- The HALT instruction (R191). -/
  | halt (hi : i = .halt) : Effect i s (s.setStatus .halted)

variable (s : State)

theorem fits_cell {s : State} (h : s.mem.inRange s.cfg) (p : Nat) : Fits s.cfg.W (s.cell p) := Memory.fits_read h p

theorem wrappingOp_effect {op : Int → Int → Int} {dest src : Int} {i : Instr} (hw : i.mnemonic.width = 3) (hi : i.mnemonic ∈ cellWriters) :
    ∃ t, wrappingOp op dest src s = .next t ∧ Effect i s t :=
  withAddr_answers (.fault _ (by decide)) fun d hd => withAddr_answers (.fault _ (by decide)) fun e _ =>
    ⟨_, rfl, hw ▸ .cell d _ hi (resolve_lt hd) fun hc _ _ => fits_wrap (by have := hc.1; omega) _⟩

theorem jumpIf_effect {c : Cond} {a b : Int} {target : Int} {i : Instr} (hw : i.mnemonic.width = 4)
    (ha : i.wellFormed s.cfg.W = true → Fits s.cfg.W target ∨ Fits s.cfg.W (target - s.pc)) :
    ∃ t, jumpIf c a b target s = .next t ∧ Effect i s t :=
  withAddr_answers (.fault _ (by decide)) fun p _ => withAddr_answers (.fault _ (by decide)) fun q _ => by
    refine ⟨_, rfl, ?_⟩
    split
    · exact .jump _ hw ha
    · exact hw ▸ .sequential

theorem pushValue_effect {v : Int} {i : Instr} (hi : i.mnemonic = .push ∨ i.mnemonic = .pushp)
    (hsp : ¬ s.sp < s.spLimit) (hv : s.mem.inRange s.cfg → Fits s.cfg.W v) :
    ∃ t, pushValue v s = .next t ∧ Effect i s t :=
  withStackTop_answers (.fault _ (by decide)) fun d hd => ⟨_, rfl, .push d v hi (by omega) hd hv⟩

theorem execDiv_effect (dest src : Int) : ∃ t, execDiv dest src s = .next t ∧ Effect (.div dest src) s t :=
  withAddr_answers (.fault _ (by decide)) fun d hd => withAddr_answers (.fault _ (by decide)) fun e _ => by
    split_ifs with h0 hm
    · exact ⟨_, rfl, .fault _ (by decide)⟩
    · exact ⟨_, rfl, .fault _ (by decide)⟩
    · exact ⟨_, rfl, .cell d _ (by simp [cellWriters, Instr.mnemonic]) (resolve_lt hd) fun _ hr _ => fits_truncDiv (fits_cell hr d) h0 hm⟩

theorem execMove_effect (dest src : Int) : ∃ t, execMove dest src s = .next t ∧ Effect (.move dest src) s t :=
  withAddr_answers (.fault _ (by decide)) fun d hd => withAddr_answers (.fault _ (by decide)) fun e _ =>
    ⟨_, rfl, .cell d _ (by simp [cellWriters, Instr.mnemonic]) (resolve_lt hd) fun _ hr _ => fits_cell hr e⟩

theorem execLoad_effect (dest imm : Int) : ∃ t, execLoad dest imm s = .next t ∧ Effect (.load dest imm) s t :=
  withAddr_answers (.fault _ (by decide)) fun d hd =>
    ⟨_, rfl, .cell d imm (by simp [cellWriters, Instr.mnemonic]) (resolve_lt hd) fun _ _ hw => by simp only [Instr.wellFormed, decide_eq_true_eq] at hw; exact hw.2⟩

theorem execStore_effect (ptr src : Int) : ∃ t, execStore ptr src s = .next t ∧ Effect (.store ptr src) s t :=
  withPtr_answers (.fault _ (by decide)) fun _ d _ hd => withAddr_answers (.fault _ (by decide)) fun e _ =>
    ⟨_, rfl, .cell d _ (by simp [cellWriters, Instr.mnemonic]) (resolve_lt hd) fun _ hr _ => fits_cell hr e⟩

theorem execStorep_effect (dp sp : Int) : ∃ t, execStorep dp sp s = .next t ∧ Effect (.storep dp sp) s t :=
  withPtr_answers (.fault _ (by decide)) fun _ d _ hd => withPtr_answers (.fault _ (by decide)) fun _ e _ _ =>
    ⟨_, rfl, .cell d _ (by simp [cellWriters, Instr.mnemonic]) (resolve_lt hd) fun _ hr _ => fits_cell hr e⟩

theorem execIncr_effect (addr : Int) : ∃ t, execIncr addr s = .next t ∧ Effect (.incr addr) s t :=
  withAddr_answers (.fault _ (by decide)) fun d hd =>
    ⟨_, rfl, .cell d _ (by simp [cellWriters, Instr.mnemonic]) (resolve_lt hd) fun hc _ _ => fits_wrap (by have := hc.1; omega) _⟩

theorem execDecr_effect (addr : Int) : ∃ t, execDecr addr s = .next t ∧ Effect (.decr addr) s t :=
  withAddr_answers (.fault _ (by decide)) fun d hd =>
    ⟨_, rfl, .cell d _ (by simp [cellWriters, Instr.mnemonic]) (resolve_lt hd) fun hc _ _ => fits_wrap (by have := hc.1; omega) _⟩

theorem execPrint_effect (addr : Int) : ∃ t, execPrint addr s = .next t ∧ Effect (.print addr) s t :=
  withAddr_answers (.fault _ (by decide)) fun p _ =>
    ⟨_, rfl, .emit _ (.inl rfl) rfl fun hr hw => ⟨by simpa [Instr.wellFormed] using hw, fits_cell hr p⟩⟩

theorem execPrintc_effect (addr : Int) : ∃ t, execPrintc addr s = .next t ∧ Effect (.printc addr) s t := by
  unfold execPrintc
  split_ifs with h8
  · exact ⟨_, rfl, .fault _ (by decide)⟩
  · exact withAddr_answers (.fault _ (by decide)) fun p _ =>
      ⟨_, rfl, .emit _ (.inr (.inl rfl)) rfl fun _ hw => ⟨by omega, by simpa [Instr.wellFormed] using hw⟩⟩

theorem execPrints_effect (addr : Int) : ∃ t, execPrints addr s = .next t ∧ Effect (.prints addr) s t := by
  unfold execPrints
  split_ifs with h8
  · exact ⟨_, rfl, .fault _ (by decide)⟩
  · refine withAddr_answers (.fault _ (by decide)) fun p _ => ?_
    split
    · exact ⟨_, rfl, .fault _ (by decide)⟩
    · rename_i bs hbs
      have h8 : s.cfg.W = 8 := by omega
      exact ⟨_, rfl, .emit _ (.inr (.inr rfl)) rfl fun hr hw =>
        ⟨h8, by simpa [Instr.wellFormed] using hw, scanString_nonzero (fun p => h8 ▸ fits_cell hr p) hbs⟩⟩

theorem execPush_effect (addr : Int) : ∃ t, execPush addr s = .next t ∧ Effect (.push addr) s t := by
  unfold execPush
  split_ifs with h
  · exact ⟨_, rfl, .fault _ (by decide)⟩
  · exact withAddr_answers (.fault _ (by decide)) fun p _ => pushValue_effect s (.inl rfl) h fun hr => fits_cell hr p

theorem execPushp_effect (ptr : Int) : ∃ t, execPushp ptr s = .next t ∧ Effect (.pushp ptr) s t := by
  unfold execPushp
  split_ifs with h
  · exact ⟨_, rfl, .fault _ (by decide)⟩
  · exact withPtr_answers (.fault _ (by decide)) fun _ p _ _ => pushValue_effect s (.inr rfl) h fun hr => fits_cell hr p

theorem execPop_effect (addr : Int) : ∃ t, execPop addr s = .next t ∧ Effect (.pop addr) s t := by
  unfold execPop
  split_ifs with h
  · exact ⟨_, rfl, .fault _ (by decide)⟩
  · have hsp : s.sp < s.cfg.CAP := by omega
    exact withStackTop_answers (.popFault (.inl rfl) hsp) fun t _ =>
      withAddr_answers (.popFault (.inl rfl) hsp) fun d hd =>
        ⟨_, rfl, .pop d _ (.inl rfl) hsp (resolve_lt (s := s) hd) fun hr => fits_cell hr t⟩

theorem execPopp_effect (ptr : Int) : ∃ t, execPopp ptr s = .next t ∧ Effect (.popp ptr) s t := by
  unfold execPopp
  split_ifs with h
  · exact ⟨_, rfl, .fault _ (by decide)⟩
  · have hsp : s.sp < s.cfg.CAP := by omega
    exact withStackTop_answers (.popFault (.inr rfl) hsp) fun t _ =>
      withPtr_answers (.popFault (.inr rfl) hsp) fun _ d _ hd =>
        ⟨_, rfl, .pop d _ (.inr rfl) hsp (resolve_lt (s := s) hd) fun hr => fits_cell hr t⟩

theorem target_fits {W : Nat} {i : Instr} {a b t : Int} (h : i.operands = [a, b, t]) (base : Int)
    (hw : i.wellFormed W = true) : Fits W t ∨ Fits W (t - base) :=
  .inl (((Laws.Assembles.all i).2.2 W).1 hw t (by simp [h]))

theorem offset_fits {W : Nat} {i : Instr} {a b o : Int} (h : i.operands = [a, b, o]) (base : Int)
    (hw : i.wellFormed W = true) : Fits W (base + o) ∨ Fits W (base + o - base) :=
  .inr (by simpa using ((Laws.Assembles.all i).2.2 W).1 hw o (by simp [h]))

/-- `exec` answers a next state of one of the ten shapes, whatever the instruction and the state. -/
theorem exec_effect (i : Instr) : ∃ t, exec i s = .next t ∧ Effect i s t := by
  cases i with
  | add dest src => exact wrappingOp_effect s rfl (by simp [cellWriters, Instr.mnemonic])
  | sub dest src => exact wrappingOp_effect s rfl (by simp [cellWriters, Instr.mnemonic])
  | mul dest src => exact wrappingOp_effect s rfl (by simp [cellWriters, Instr.mnemonic])
  | div dest src => exact execDiv_effect s dest src
  | move dest src => exact execMove_effect s dest src
  | load dest imm => exact execLoad_effect s dest imm
  | store ptr src => exact execStore_effect s ptr src
  | storep dp sp => exact execStorep_effect s dp sp
  | jlt a b t => exact jumpIf_effect s rfl (target_fits rfl s.pc)
  | jle a b t => exact jumpIf_effect s rfl (target_fits rfl s.pc)
  | jge a b t => exact jumpIf_effect s rfl (target_fits rfl s.pc)
  | jgt a b t => exact jumpIf_effect s rfl (target_fits rfl s.pc)
  | jmp a b t => exact ⟨_, rfl, .jump _ rfl (target_fits rfl s.pc)⟩
  | rjlt a b o => exact jumpIf_effect s rfl (offset_fits rfl s.pc)
  | rjle a b o => exact jumpIf_effect s rfl (offset_fits rfl s.pc)
  | rjge a b o => exact jumpIf_effect s rfl (offset_fits rfl s.pc)
  | rjgt a b o => exact jumpIf_effect s rfl (offset_fits rfl s.pc)
  | rjmp a b o => exact ⟨_, rfl, .jump _ rfl (offset_fits rfl s.pc)⟩
  | incr addr => exact execIncr_effect s addr
  | decr addr => exact execDecr_effect s addr
  | print addr => exact execPrint_effect s addr
  | printc addr => exact execPrintc_effect s addr
  | prints addr => exact execPrints_effect s addr
  | push addr => exact execPush_effect s addr
  | pushp ptr => exact execPushp_effect s ptr
  | pop addr => exact execPop_effect s addr
  | popp ptr => exact execPopp_effect s ptr
  | mode imm => exact ⟨_, rfl, .mode imm rfl⟩
  | halt => exact ⟨_, rfl, .halt rfl⟩

/-- What a next state of `exec` looks like (the inversion of `exec`). -/
theorem exec_cases {i : Instr} {s t : State} (h : exec i s = .next t) : Effect i s t := by
  obtain ⟨u, hu, he⟩ := exec_effect s i
  obtain rfl : u = t := by simpa [hu] using h
  exact he

end Sys2Proof.Machine
end

