-- ==== Sys2Proof/Laws/Step.lean ====
section
/-! SUPPORT. Said once: what a step can do in each status, what the fetch gives, and what a host command can do
(spec/40_dispatch.md R100 to R105, spec/70_reset_and_hazards.md R236). -/

namespace Sys2Proof.Machine

/-- Everything a host command does in a state that accepts it (R60 to R63, R232 to R234). -/
inductive HostEffect (s : State) : State → Prop where
  /-- An empty `write_cells`. -/
  | nothing : HostEffect s s
  /-- A loader write out of range. -/
  | outOfCapacity : HostEffect s (s.faultWith .outOfCapacity)
  /-- A successful loader write. -/
  | loaded (a : Int) (vs : List Int) (hn : 1 ≤ vs.length) (h0 : 0 ≤ a) (hr : a + vs.length ≤ s.cfg.CAP)
      (hv : ∀ v ∈ vs, Fits s.cfg.W v) : HostEffect s (s.loaded a vs)
  /-- `set_pc`. -/
  | setPc (a : Int) : HostEffect s (s.setPc a)
  /-- `set_sp`. -/
  | setSp (a : Int) : HostEffect s (s.setSp a)
  /-- `start`. -/
  | start : HostEffect s (s.setStatus .running)

variable {s t : State}

theorem writeCells_cases {a : Int} {vs : List Int} (h : writeCells a vs s = .next t) : HostEffect s t := by
  unfold writeCells at h
  split_ifs at h with hv hn hr
  · cases h; exact .nothing
  · cases h; exact .outOfCapacity
  · cases h; exact .loaded a vs (by omega) (by omega) (by omega) hv

theorem writeCell_cases {a : Int} {v : Int} (h : writeCell a v s = .next t) : HostEffect s t := by
  unfold writeCell at h
  split_ifs at h with hv hr
  · cases h; exact .loaded a [v] (by simp) hr.1 (by simpa using hr.2) (by simpa using hv)
  · cases h; exact .outOfCapacity

theorem accepted_cases {c : Command} (h : accepted c s = .next t) : HostEffect s t := by
  cases c with
  | writeCell a v => exact writeCell_cases h
  | writeCells a vs => exact writeCells_cases h
  | writeBytes a bs =>
    simp only [accepted, writeBytes] at h
    split_ifs at h
    exact writeCells_cases h
  | setPc a => cases h; exact .setPc a
  | setSp a => cases h; exact .setSp a
  | start => cases h; exact .start

/-- What a command in a state with no run active can do: it is accepted in Idle and Halted and has no effect in
Faulted (R236). -/
theorem command_cases {c : Command} (h : command c s = .next t) :
    ((s.status = .idle ∨ s.status = .halted) ∧ HostEffect s t) ∨ ((∃ k p q, s.status = .faulted k p q) ∧ t = s) := by
  unfold command at h
  split at h
  · exact .inl ⟨.inl ‹_›, accepted_cases h⟩
  · cases h
  · exact .inl ⟨.inr ‹_›, accepted_cases h⟩
  · cases h; exact .inr ⟨⟨_, _, _, ‹_›⟩, rfl⟩

/-- A step of a running machine is the fetched instruction's execute phase, or the fault its fetch raised. -/
theorem step_running (h : s.status = .running) :
    step s = match fetchInstr s with | .error k => raise k s | .ok i => exec i s := by
  cases hf : fetchInstr s <;> simp only [step, h, hf]

/-- A step in every other status takes the host's next command. -/
theorem step_not_running (h : s.status ≠ .running) : step s = takeCommand s := by
  unfold step
  split <;> first | rfl | exact absurd ‹_› h

/-- The loop leaves a state that is not Running as it is, whatever the fuel (R109). -/
theorem run_not_running (h : s.status ≠ .running) (n : Nat) : run n s = .next s := by
  cases n with
  | zero => rfl
  | succ n => simp [run, h]

/-- The loop on a Running state is one step, then the loop with the fuel left (R109). -/
theorem run_succ_running (h : s.status = .running) (hs : step s = .next t) (n : Nat) : run (n + 1) s = run n t := by
  simp [run, h, hs]

/-- The fetch depends on the parameters, memory, `PC` and `MODE` alone (R53, R101). -/
theorem fetchInstr_congr {u : State} (hc : u.cfg = s.cfg) (hm : u.mem = s.mem) (hp : u.pc = s.pc)
    (hk : u.mode = s.mode) : fetchInstr u = fetchInstr s := by
  have hcell : u.cell = s.cell := funext fun p => by simp only [State.cell, hm]
  have hf : ∀ k, u.fetch k = s.fetch k := fun k => by
    simp only [State.fetch, State.resolve, hcell, hc, hp, hk]
  have hw : ∀ n k, u.fetchWords n k = s.fetchWords n k := by
    intro n
    induction n with
    | zero => intro k; rfl
    | succ n ih => intro k; simp only [State.fetchWords, hf, ih]
  simp only [fetchInstr, hf, hw, hc]

/-- The words a fetch reads are cells of memory. -/
theorem fetchWords_fits (h : s.mem.inRange s.cfg) :
    ∀ {n k : Nat} {ws : List Int}, s.fetchWords n k = some ws → ws.length = n ∧ ∀ w ∈ ws, Fits s.cfg.W w := by
  intro n
  induction n with
  | zero => intro k ws hw; cases hw; simp
  | succ n ih =>
    intro k ws hw
    unfold State.fetchWords at hw
    split at hw
    · cases hw
    · rename_i w hk
      split at hw
      · cases hw
      · rename_i us hus
        cases hw
        obtain ⟨p, -, rfl⟩ := Option.map_eq_some_iff.1 hk
        obtain ⟨hl, hf⟩ := ih hus
        simp only [List.length_cons, hl, List.mem_cons, forall_eq_or_imp, true_and]
        exact ⟨fits_cell h p, hf⟩

/-- An instruction assembled from words in range is well formed (R85, R90). -/
theorem instr_wellFormed {W : Nat} (m : Mnemonic) {ws : List Int} (h : ∀ w ∈ ws, Fits W w) :
    (m.instr ws).wellFormed W = true := by
  have hd : ∀ k, Fits W (ws.getD k 0) := by
    intro k
    rw [List.getD_eq_getElem?_getD]
    cases hk : ws[k]? with
    | none => exact fits_zero W
    | some w => exact h w (List.mem_of_getElem? hk)
  cases m <;> simp only [Mnemonic.instr, Instr.wellFormed, decide_eq_true_eq] <;>
    first | exact ⟨hd 0, hd 1, hd 2⟩ | exact ⟨hd 0, hd 1⟩ | exact hd 0

/-- An instruction the machine fetches is well formed. -/
theorem fetchInstr_wellFormed (h : s.mem.inRange s.cfg) {i : Instr} (hi : fetchInstr s = .ok i) :
    i.wellFormed s.cfg.W = true := by
  unfold fetchInstr at hi
  split at hi
  · cases hi
  · split at hi
    · cases hi
    · split at hi
      · cases hi
      · rename_i ws hws
        cases hi
        exact instr_wellFormed _ (fetchWords_fits h hws).2

end Sys2Proof.Machine
end

