-- ==== Sys2Proof/Tests/Slice0.lean ====
section
/-! SUPPORT. Tests.  Every expected value is the spec's: the encoding table R82, the vectors T-* and V* of
spec/95_test_vectors.md (named in each comment), or hand calculation from the cited rule.  After them, a witness for
the hypotheses of each statement. -/

namespace Sys2Proof.Tests

open Sys2Proof.Machine

/-! ## Well-formedness: one ill-formed operand for each check -/

/-- The least value above the 8-bit range and the greatest below it. -/
def big : Int := 128
def low : Int := -129

theorem test_wellFormed_accepts_boundaries :
    Instr.wellFormed 8 (.add 127 (-128)) = true ∧ Instr.wellFormed 8 (.jmp (-128) 127 (-128)) = true ∧
    Instr.wellFormed 32 (.load 2147483647 (-2147483648)) = true ∧ Instr.wellFormed 8 .halt = true := by decide

theorem test_wellFormed_refuses_two_operands :
    ∀ i ∈ [
      Instr.add big 0, Instr.add 0 big, Instr.sub big 0, Instr.sub 0 big, Instr.mul big 0, Instr.mul 0 big,
      Instr.div big 0, Instr.div 0 big, Instr.move big 0, Instr.move 0 big, Instr.load big 0, Instr.load 0 big,
      Instr.store big 0, Instr.store 0 big, Instr.storep big 0, Instr.storep 0 big],
      Instr.wellFormed 8 i = false := by decide

theorem test_wellFormed_refuses_three_operands :
    ∀ i ∈ [
      Instr.jlt big 0 0, Instr.jlt 0 big 0, Instr.jlt 0 0 big, Instr.jle low 0 0, Instr.jle 0 low 0,
      Instr.jle 0 0 low, Instr.jge big 0 0, Instr.jge 0 big 0, Instr.jge 0 0 big, Instr.jgt low 0 0,
      Instr.jgt 0 low 0, Instr.jgt 0 0 low, Instr.jmp big 0 0, Instr.jmp 0 big 0, Instr.jmp 0 0 big,
      Instr.rjlt low 0 0, Instr.rjlt 0 low 0, Instr.rjlt 0 0 low, Instr.rjle big 0 0, Instr.rjle 0 big 0,
      Instr.rjle 0 0 big, Instr.rjge low 0 0, Instr.rjge 0 low 0, Instr.rjge 0 0 low, Instr.rjgt big 0 0,
      Instr.rjgt 0 big 0, Instr.rjgt 0 0 big, Instr.rjmp low 0 0, Instr.rjmp 0 low 0, Instr.rjmp 0 0 low],
      Instr.wellFormed 8 i = false := by decide

theorem test_wellFormed_refuses_one_operand :
    ∀ i ∈ [
      Instr.incr big, Instr.decr low, Instr.print big, Instr.printc low, Instr.prints big, Instr.push low,
      Instr.pushp big, Instr.pop low, Instr.popp big, Instr.mode low],
      Instr.wellFormed 8 i = false := by decide

/-! ## Decoding: words written out from the table of R82 -/

theorem test_decode_arithmetic :
    decode Config.default [1, 5, -7, 3] = .ok (.add 5 (-7), [3]) ∧
    decode Config.default [2, 5, -7, 3] = .ok (.sub 5 (-7), [3]) ∧
    decode Config.default [3, 5, -7, 3] = .ok (.mul 5 (-7), [3]) ∧
    decode Config.default [4, 5, -7, 3] = .ok (.div 5 (-7), [3]) := by
  refine ⟨rfl, rfl, rfl, rfl⟩

theorem test_decode_data_movement :
    decode Config.default [5, 5, -7, 3] = .ok (.move 5 (-7), [3]) ∧
    decode Config.default [6, 5, -7, 3] = .ok (.load 5 (-7), [3]) ∧
    decode Config.default [7, 5, -7, 3] = .ok (.store 5 (-7), [3]) ∧
    decode Config.default [8, 5, -7, 3] = .ok (.storep 5 (-7), [3]) := by
  refine ⟨rfl, rfl, rfl, rfl⟩

theorem test_decode_absolute_jumps :
    decode Config.default [9, 5, -7, 9, 3] = .ok (.jlt 5 (-7) 9, [3]) ∧
    decode Config.default [10, 5, -7, 9, 3] = .ok (.jle 5 (-7) 9, [3]) ∧
    decode Config.default [11, 5, -7, 9, 3] = .ok (.jge 5 (-7) 9, [3]) ∧
    decode Config.default [12, 5, -7, 9, 3] = .ok (.jgt 5 (-7) 9, [3]) ∧
    decode Config.default [13, 5, -7, 9, 3] = .ok (.jmp 5 (-7) 9, [3]) := by
  refine ⟨rfl, rfl, rfl, rfl, rfl⟩

theorem test_decode_relative_jumps :
    decode Config.default [14, 5, -7, 9, 3] = .ok (.rjlt 5 (-7) 9, [3]) ∧
    decode Config.default [15, 5, -7, 9, 3] = .ok (.rjle 5 (-7) 9, [3]) ∧
    decode Config.default [16, 5, -7, 9, 3] = .ok (.rjge 5 (-7) 9, [3]) ∧
    decode Config.default [17, 5, -7, 9, 3] = .ok (.rjgt 5 (-7) 9, [3]) ∧
    decode Config.default [18, 5, -7, 9, 3] = .ok (.rjmp 5 (-7) 9, [3]) := by
  refine ⟨rfl, rfl, rfl, rfl, rfl⟩

theorem test_decode_incr_decr :
    decode Config.default [19, 5, 3] = .ok (.incr 5, [3]) ∧
    decode Config.default [20, 5, 3] = .ok (.decr 5, [3]) := by
  refine ⟨rfl, rfl⟩

theorem test_decode_output :
    decode Config.default [21, 5, 3] = .ok (.print 5, [3]) ∧
    decode Config.default [22, 5, 3] = .ok (.printc 5, [3]) ∧
    decode Config.default [23, 5, 3] = .ok (.prints 5, [3]) := by
  refine ⟨rfl, rfl, rfl⟩

theorem test_decode_stack :
    decode Config.default [24, 5, 3] = .ok (.push 5, [3]) ∧
    decode Config.default [25, 5, 3] = .ok (.pushp 5, [3]) ∧
    decode Config.default [26, 5, 3] = .ok (.pop 5, [3]) ∧
    decode Config.default [27, 5, 3] = .ok (.popp 5, [3]) := by
  refine ⟨rfl, rfl, rfl, rfl⟩

theorem test_decode_system :
    decode Config.default [28, 5, 3] = .ok (.mode 5, [3]) ∧
    decode Config.default [29, 3] = .ok (.halt, [3]) := by
  refine ⟨rfl, rfl⟩

/-- R83, R86 and T-DEC-1 to T-DEC-3: 0, 30 and a negative word spell no instruction; R80: too few words. -/
theorem test_decode_rejects :
    decode Config.default [0, 1, 2] = .error (.illegalOpcode 0) ∧
    decode Config.default [30, 1, 2] = .error (.illegalOpcode 30) ∧
    decode Config.default [-1] = .error (.illegalOpcode (-1)) ∧
    decode Config.default [9, 0, 1] = .error .truncated ∧ decode Config.default [] = .error .truncated := by
  refine ⟨rfl, rfl, rfl, rfl, rfl⟩

/-- R8: another injective assignment (the default one counted from 100) decodes by its own values. -/
theorem test_decode_other_opcodes :
    decode { W := 32, CAP := 64, OPC := (List.range 29).map fun k => (k : Int) + 100 } [114, 0, 1, -4] =
      .ok (.rjle 0 1 (-4), []) := rfl

/-- R80, R85: a table word's bits are cut into W-bit words, the first in the lowest bits, each read as signed. -/
theorem test_decodeTableWord :
    decodeTableWord 128 (15 + 1 * 2 ^ 64 + (2 ^ 32 - 4) * 2 ^ 96) = some (.rjle 0 1 (-4)) ∧
    decodeTableWord 32 29 = some .halt ∧ decodeTableWord 32 30 = none := by decide

/-! ## One step of each instruction -/

/-- A running machine under the default opcode table: `W`, `CAP`, the cells `M[0], M[1], ...` and single cells above
them, then `PC`, `SP`, `SP_LIMIT` and `MODE`. -/
def machine (W CAP : Nat) (cells : List Int) (more : List (Nat × Int)) (pc sp spLimit mode : Int) : State :=
  { State.initial { W := W, CAP := CAP, OPC := Config.defaultOpcodes } with
    mem := more.foldl (fun m e => m.write e.1 e.2) (Memory.writeAll [] 0 cells)
    pc := pc, sp := sp, spLimit := spLimit, mode := mode, status := .running }

/-- The state after one step; the same state when the step answers none. -/
def after (s : State) : State :=
  match step s with
  | .next t => t
  | .fault _ => s
  | .refused _ => s

/-- The state after a host command; the same state when it is refused. -/
def afterCommand (c : Command) (s : State) : State :=
  match command c s with
  | .next t => t
  | .fault _ => s
  | .refused _ => s

/-- T-ARI-2: MAX + 1 = MIN. -/
theorem test_add_wraps :
    let t := after (machine 32 40 [2147483647, 1, 1, 0, 1] [] 2 0 0 1)
    t.cell 0 = -2147483648 ∧ t.pc = 5 ∧ t.status = .running := by decide

/-- T-ARI-5: the cell doubles. -/
theorem test_add_same_cell :
    let t := after (machine 32 40 [0, 0, 0, 6, 1, 3, 3] [] 4 0 0 1)
    t.cell 3 = 12 ∧ t.pc = 7 := by decide

/-- T-ARI-8: MIN - 1 = MAX. -/
theorem test_sub_wraps :
    let t := after (machine 32 40 [-2147483648, 1, 2, 0, 1] [] 2 0 0 1)
    t.cell 0 = 2147483647 ∧ t.cell 1 = 1 := by decide

/-- T-ARI-10: 5 - 7 = -2. -/
theorem test_sub_order :
    let t := after (machine 32 40 [5, 7, 2, 0, 1] [] 2 0 0 1)
    t.cell 0 = -2 ∧ t.cell 1 = 7 := by decide

/-- T-ARI-15: 46341 squared, wrapped. -/
theorem test_mul_wraps :
    let t := after (machine 32 40 [46341, 46341, 3, 0, 1] [] 2 0 0 1)
    t.cell 0 = -2147479015 := by decide

/-- T-ARI-31: W = 8, 15 * 17 = 255 wraps to -1. -/
theorem test_mul_wraps_byte :
    let t := after (machine 8 40 [15, 17, 3, 0, 1] [] 2 0 0 1)
    t.cell 0 = -1 := by decide

/-- T-ARI-20: 7 / -2 = -3, rounded toward zero. -/
theorem test_div_truncates :
    let t := after (machine 32 40 [7, -2, 4, 0, 1] [] 2 0 0 1)
    t.cell 0 = -3 ∧ t.pc = 5 := by decide

/-- T-ARI-25: MIN / -1 raises Arithmetic. -/
theorem test_div_min_by_minus_one :
    let t := after (machine 32 40 [-2147483648, -1, 4, 0, 1] [] 2 9 0 1)
    t.cell 0 = -2147483648 ∧ t.status = .faulted .arithmetic 2 9 ∧ t.pc = 2 := by decide

/-- T-MOV-1. -/
theorem test_move_copies :
    let t := after (machine 32 40 [0, 42, 5, 0, 1] [] 2 0 0 1)
    t.cell 0 = 42 ∧ t.cell 1 = 42 ∧ t.pc = 5 := by decide

/-- T-MOV-3: the source address is CAP. -/
theorem test_move_bad_source :
    let t := after (machine 32 8 [7, 42, 5, 0, 8] [] 2 0 0 1)
    t.cell 0 = 7 ∧ t.status = .faulted .invalidAddress 2 0 := by decide

/-- T-MOV-6: the immediate 9 is past CAP and is stored. -/
theorem test_load_immediate_not_resolved :
    let t := after (machine 32 8 [0, 0, 6, 0, 9] [] 2 0 0 1)
    t.cell 0 = 9 ∧ t.status = .running := by decide

/-- T-MOV-7. -/
theorem test_load_bad_destination :
    let t := after (machine 32 8 [0, 0, 6, 8, 0] [] 2 0 0 1)
    t.status = .faulted .invalidAddress 2 0 ∧ t.pc = 2 := by decide

/-- T-MOV-11: MODE = 2, pointer 3 is physical 6. -/
theorem test_store_scales_the_pointer :
    let t := after (machine 32 16 [11, 0, 3] [(8, 7), (10, 1)] 4 0 0 2)
    t.cell 6 = 11 ∧ t.pc = 7 := by decide

/-- T-MOV-9: the pointer value is CAP. -/
theorem test_store_pointer_out_of_range :
    let t := after (machine 32 40 [40, 0, 42, 7, 0, 2] [] 3 0 0 1)
    t.status = .faulted .invalidAddress 3 0 ∧ t.cell 0 = 40 := by decide

/-- T-MOV-13. -/
theorem test_storep_copies :
    let t := after (machine 32 40 [30, 31, 8, 1, 0] [(30, 42)] 2 0 0 1)
    t.cell 31 = 42 ∧ t.cell 30 = 42 ∧ t.pc = 5 := by decide

/-- T-MOV-15. -/
theorem test_storep_bad_source_pointer :
    let t := after (machine 32 40 [99, 31, 8, 1, 0] [(31, 5)] 2 0 0 1)
    t.cell 31 = 5 ∧ t.status = .faulted .invalidAddress 2 0 := by decide

/-- T-JMP-1. -/
theorem test_jlt_signed :
    let t := after (machine 32 64 [-1, 1] [(20, 9), (21, 0), (22, 1), (23, 40)] 20 0 0 1)
    t.pc = 40 := by decide

/-- T-JMP-22: a target not taken is never checked. -/
theorem test_jlt_target_not_checked :
    let t := after (machine 32 64 [0, 0] [(20, 9), (21, 0), (22, 1), (23, 1000)] 20 0 0 1)
    t.pc = 24 ∧ t.status = .running := by decide

/-- T-JMP-4. -/
theorem test_jle_equal :
    let t := after (machine 32 64 [5, 5] [(20, 10), (21, 0), (22, 1), (23, 2)] 20 0 0 1)
    t.pc = 2 := by decide

/-- T-JMP-5. -/
theorem test_jle_greater :
    let t := after (machine 32 64 [6, 5] [(20, 10), (21, 0), (22, 1), (23, 2)] 20 0 0 1)
    t.pc = 24 := by decide

/-- T-JMP-6. -/
theorem test_jge_signed :
    let t := after (machine 32 64 [-3, 2] [(20, 11), (21, 0), (22, 1), (23, 2)] 20 0 0 1)
    t.pc = 24 := by decide

/-- T-JMP-7. -/
theorem test_jge_equal :
    let t := after (machine 32 64 [2, 2] [(20, 11), (21, 0), (22, 1), (23, 2)] 20 0 0 1)
    t.pc = 2 := by decide

/-- T-JMP-8. -/
theorem test_jgt_greater :
    let t := after (machine 32 64 [2, 1] [(20, 12), (21, 0), (22, 1), (23, 12)] 20 0 0 1)
    t.pc = 12 := by decide

/-- T-JMP-9. -/
theorem test_jgt_min_max :
    let t := after (machine 32 64 [-2147483648, 2147483647] [(20, 12), (21, 0), (22, 1), (23, 12)] 20 0 0 1)
    t.pc = 24 := by decide

/-- T-DEC-9: junk in the unused words. -/
theorem test_jmp_ignores_unused :
    let t := after (machine 32 8 [13, 99, -5, 6] [] 0 0 0 1)
    t.pc = 6 := by decide

/-- T-JMP-12. -/
theorem test_rjlt_backward :
    let t := after (machine 32 64 [1, 2] [(20, 14), (21, 0), (22, 1), (23, -8)] 20 0 0 1)
    t.pc = 12 := by decide

/-- T-JMP-20: the result -10 is not checked here. -/
theorem test_rjlt_negative_result :
    let t := after (machine 32 64 [0, 1] [(20, 14), (21, 0), (22, 1), (23, -30)] 20 0 0 1)
    t.pc = -10 ∧ t.status = .running := by decide

/-- T-JMP-13. -/
theorem test_rjle_equal :
    let t := after (machine 32 64 [100, 100] [(12, 15), (13, 0), (14, 1), (15, -4)] 12 0 0 1)
    t.pc = 8 := by decide

/-- T-JMP-14. -/
theorem test_rjle_greater :
    let t := after (machine 32 64 [101, 100] [(12, 15), (13, 0), (14, 1), (15, -4)] 12 0 0 1)
    t.pc = 16 := by decide

/-- T-JMP-15. -/
theorem test_rjge_equal :
    let t := after (machine 32 64 [0, 0, 16, 0, 1, 10] [] 2 0 0 1)
    t.pc = 12 := by decide

/-- T-JMP-16. -/
theorem test_rjgt_greater :
    let t := after (machine 32 64 [9, 1] [(18, 17), (19, 0), (20, 1), (21, -6)] 18 0 0 1)
    t.pc = 12 := by decide

/-- T-JMP-17. -/
theorem test_rjgt_equal :
    let t := after (machine 32 64 [1, 1] [(18, 17), (19, 0), (20, 1), (21, -6)] 18 0 0 1)
    t.pc = 22 := by decide

/-- T-JMP-18. -/
theorem test_rjmp_backward :
    let t := after (machine 32 64 [0] [(30, 18), (33, -10)] 30 0 0 1)
    t.pc = 20 := by decide

/-- T-JMP-23: the words stand at scaled indices, the result is logical. -/
theorem test_rjmp_mode_two :
    let t := after (machine 32 64 [0] [(20, 18), (26, 4)] 10 0 0 2)
    t.pc = 14 := by decide

/-- T-INC-2. -/
theorem test_incr_wraps :
    let t := after (machine 32 40 [2147483647, 19, 0] [] 1 0 0 1)
    t.cell 0 = -2147483648 ∧ t.pc = 3 := by decide

/-- T-INC-7: W = 8. -/
theorem test_incr_wraps_byte :
    let t := after (machine 8 40 [127, 19, 0] [] 1 0 0 1)
    t.cell 0 = -128 := by decide

/-- T-INC-5. -/
theorem test_decr_below_zero :
    let t := after (machine 32 40 [20, 3, 0, 0] [] 0 0 0 1)
    t.cell 3 = -1 ∧ t.pc = 2 := by decide

/-- T-INC-6. -/
theorem test_decr_wraps :
    let t := after (machine 32 40 [-2147483648, 20, 0] [] 1 0 0 1)
    t.cell 0 = 2147483647 := by decide

/-- T-OUT-3: MODE = 2, PRINT 3 prints cell 6 under 3. -/
theorem test_print_label_is_logical :
    let t := after (machine 32 16 [0] [(2, 21), (4, 3), (6, 9)] 1 0 0 2)
    t.out = [.int 3 9] ∧ t.pc = 3 := by decide

/-- T-OUT-4. -/
theorem test_print_bad_address :
    let t := after (machine 32 8 [21, 8] [] 0 0 0 1)
    t.out = [] ∧ t.status = .faulted .invalidAddress 0 0 := by decide

/-- T-OUT-6: W = 8, the cell -1 is byte 0xFF. -/
theorem test_printc_raw_byte :
    let t := after (machine 8 8 [22, 5, 0, 0, 0, -1] [] 0 0 0 1)
    t.out = [.char 5 0xFF] ∧ t.pc = 2 := by decide

/-- T-DEC-11: W = 32, before the resolution of 99. -/
theorem test_printc_precondition_first :
    let t := after (machine 32 8 [22, 99] [] 0 0 0 1)
    t.status = .faulted .widthPrecondition 0 0 ∧ t.out = [] := by decide

/-- T-OUT-12: MODE = 2, the rest is read physically. -/
theorem test_prints_physical_scan :
    let t := after (machine 8 16 [23, 0, 5] [(10, 72), (11, 105)] 0 0 0 2)
    t.out = [.str 5 [72, 105]] ∧ t.pc = 2 := by decide

/-- T-OUT-10. -/
theorem test_prints_unterminated :
    let t := after (machine 8 12 [23, 10] [(10, 72), (11, 105)] 0 0 0 1)
    t.out = [] ∧ t.status = .faulted .invalidAddress 0 0 := by decide

/-- T-STK-2: a push at SP = SP_LIMIT is allowed. -/
theorem test_push_at_the_limit :
    let t := after (machine 32 32 [7, 24, 0] [] 1 21 21 1)
    t.cell 21 = 7 ∧ t.sp = 20 ∧ t.pc = 3 := by decide

/-- T-DEC-10: before the resolution of 99. -/
theorem test_push_precondition_first :
    let t := after (machine 32 8 [24, 99] [] 0 0 5 1)
    t.status = .faulted .stackOverflow 0 0 := by decide

/-- T-STK-13. -/
theorem test_pushp_through_pointer :
    let t := after (machine 32 40 [0, 31, 25, 1] [(31, 43)] 2 39 30 1)
    t.cell 39 = 43 ∧ t.sp = 38 := by decide

/-- R184: StackOverflow as in PUSH. -/
theorem test_pushp_overflow :
    let t := after (machine 32 40 [25, 99] [] 0 4 5 1)
    t.status = .faulted .stackOverflow 0 4 ∧ t.sp = 4 := by decide

/-- T-STK-5. -/
theorem test_pop_copies :
    let t := after (machine 32 32 [0, 26, 0] [(30, 9)] 1 29 21 1)
    t.sp = 30 ∧ t.cell 0 = 9 ∧ t.cell 30 = 9 := by decide

/-- T-STK-6: InvalidAddress with the incremented SP, not StackUnderflow. -/
theorem test_pop_from_the_top :
    let t := after (machine 32 32 [0, 26, 0] [(31, 4)] 1 31 21 1)
    t.status = .faulted .invalidAddress 1 32 ∧ t.sp = 32 ∧ t.cell 0 = 0 := by decide

/-- T-STK-14. -/
theorem test_popp_through_pointer :
    let t := after (machine 32 40 [30, 27, 0] [(39, 43)] 1 38 0 1)
    t.sp = 39 ∧ t.cell 30 = 43 := by decide

/-- T-STK-15. -/
theorem test_popp_fault_keeps_increment :
    let t := after (machine 32 40 [99, 27, 0] [(39, 43)] 1 38 0 1)
    t.status = .faulted .invalidAddress 1 39 ∧ t.sp = 39 := by decide

/-- T-SYS-4: MODE 1 from MODE 2, fetched at physical 6 and 8. -/
theorem test_mode_fetch_is_scaled :
    let t := after (machine 32 16 [0] [(6, 28), (8, 1)] 3 0 0 2)
    t.mode = 1 ∧ t.pc = 5 := by decide

/-- T-SYS-3: any value is accepted. -/
theorem test_mode_negative :
    let t := after (machine 32 40 [28, -1] [] 0 0 0 1)
    t.mode = -1 ∧ t.pc = 2 ∧ t.status = .running := by decide

/-- T-DEC-7: width 1 fits in the last cell. -/
theorem test_halt_in_the_last_cell :
    let t := after (machine 32 8 [0] [(7, 29)] 7 0 0 1)
    t.status = .halted ∧ t.pc = 7 := by decide

/-! ## Fetch, decode and the host -/

/-- T-DEC-6: JLT at 6 with CAP = 8. -/
theorem test_fetch_off_the_end :
    let t := after (machine 32 8 [0] [(6, 9)] 6 0 0 1)
    t.status = .faulted .invalidAddress 6 0 := by decide

/-- T-DEC-12: the opcode resolves, the operand does not. -/
theorem test_fetch_operand_under_negative_mode :
    let t := after (machine 32 8 [21] [] 0 0 0 (-1))
    t.status = .faulted .invalidAddress 0 0 := by decide

/-- T-DEC-5. -/
theorem test_fetch_negative_pc :
    let t := after (machine 32 8 [0] [] (-1) 0 0 1)
    t.status = .faulted .invalidAddress (-1) 0 := by decide

/-- A new instance with 8 cells. -/
def fresh (W : Nat) : State := State.initial { W := W, CAP := 8, OPC := Config.defaultOpcodes }

/-- T-LDR-5: SP_LIMIT 2, then 6, then 6. -/
theorem test_loader_sp_limit :
    let s1 := afterCommand (.writeCells 0 [1, 2]) (fresh 32)
    let s2 := afterCommand (.writeCells 5 [3]) s1
    let s3 := afterCommand (.writeCell 1 9) s2
    s1.spLimit = 2 ∧ s2.spLimit = 6 ∧ s3.spLimit = 6 ∧ s3.mem = [(0, 1), (1, 9), (5, 3)] := by decide

/-- T-LDR-3 and T-LDR-6: out of range, nothing written. -/
theorem test_loader_out_of_capacity :
    (afterCommand (.writeCells 6 [1, 2, 3]) (fresh 32)).status = .faulted .outOfCapacity 0 0 ∧
    (afterCommand (.writeCells 6 [1, 2, 3]) (fresh 32)).mem = [] ∧
    (afterCommand (.writeCell (-1) 0) (fresh 32)).status = .faulted .outOfCapacity 0 0 := by decide

/-- T-LDR-7, T-LDR-8 and T-LDR-9. -/
theorem test_loader_write_bytes :
    (afterCommand (.writeBytes 3 [0x48, 0x69, 0x00]) (fresh 8)).mem = [(3, 72), (4, 105)] ∧
    (afterCommand (.writeBytes 3 [0x48, 0x69, 0x00]) (fresh 8)).spLimit = 6 ∧
    (afterCommand (.writeBytes 0 [0xFF]) (fresh 8)).cell 0 = -1 ∧
    command (.writeBytes 0 [0x41]) (fresh 32) = .refused .writeBytesNeedsByteCells := ⟨by decide, by decide, by decide, rfl⟩

/-- T-LDR-10: no command has an effect once faulted. -/
theorem test_loader_no_effect_in_faulted :
    let s := afterCommand (.writeCell 8 1) (fresh 32)
    afterCommand (.writeCell 0 1) s = s ∧ afterCommand (.setPc 3) s = s ∧ afterCommand .start s = s := by decide

/-- R60, 92 D31: a value that does not fit is refused; R236: so is a command during a run; R220: so are bad parameters. -/
theorem test_refusals :
    command (.writeCell 0 128) (fresh 8) = .refused .loaderValueTooWide ∧
    command (.setSp 1) ((fresh 8).setStatus .running) = .refused .commandWhileRunning ∧
    construct { W := 7, CAP := 8, OPC := Config.defaultOpcodes } = .refused .badParameters := ⟨rfl, rfl, rfl⟩

/-- The codes of R200. -/
theorem test_fault_codes :
    [Fault.invalidAddress, .outOfCapacity, .stackOverflow, .stackUnderflow, .illegalInstruction, .arithmetic,
      .widthPrecondition].map Fault.code = [1, 2, 3, 4, 5, 6, 7] := by decide

/-- The placing of a table word: the very next step from reset runs it. -/
theorem test_withFetchWord_runs :
    let t := after (State.reset.withFetchWord 64 (19 + 5 * 2 ^ 32))
    t.cell 5 = 1 ∧ t.pc = 2 ∧ t.status = .running := by decide

/-- T-RES-1 to T-RES-12. -/
theorem test_resolve :
    let at8 := fun mode : Int => (fresh 32).setMode mode
    (at8 1).resolve 0 = some 0 ∧ (at8 1).resolve 7 = some 7 ∧ (at8 1).resolve 8 = none ∧ (at8 1).resolve (-1) = none ∧
    (at8 2).resolve 3 = some 6 ∧ (at8 2).resolve 4 = none ∧ (at8 0).resolve 5 = some 0 ∧ (at8 0).resolve 8 = none ∧
    (at8 (-1)).resolve 0 = some 0 ∧ (at8 (-1)).resolve 1 = none ∧ (at8 3).resolve 2 = some 6 ∧
    (at8 3).resolve 3 = none := by decide

/-- R109, R243: the loop ends at the HALT; fuel left over takes no pending `start`. -/
theorem test_run_stops_at_halt :
    let s := { machine 32 8 [29] [] 0 0 0 1 with commands := [.start] }
    HaltsWithin 1 s ∧ HaltsWithin 2 s ∧ run 3 s = .next (s.setStatus .halted) :=
  ⟨⟨rfl, _, rfl, rfl⟩, ⟨rfl, _, rfl, rfl⟩, rfl⟩

/-! ## Witnesses: for each statement with hypotheses, states and operands that meet them, one for each clause -/

/-- Legal parameters with byte cells and 8 cells of memory. -/
def cfg8 : Config := { W := 8, CAP := 8, OPC := Config.defaultOpcodes }

theorem witness_DecodeOfEncodeIsIdentity :
    cfg8.wf ∧ Instr.wellFormed cfg8.W (.jlt 127 (-128) 0) = true := by decide

theorem witness_EncodeOfDecodeIsIdentity :
    decode Config.default [9, 5, -7, 9, 3] = .ok (.jlt 5 (-7) 9, [3]) := rfl

theorem witness_EncodedWordsFitAndCount :
    cfg8.wf ∧ Instr.wellFormed cfg8.W (.load 127 (-128)) = true ∧ -128 ∈ encode cfg8 (.load 127 (-128)) := by decide

theorem witness_WrapIsTheUniqueRepresentative :
    1 ≤ 8 ∧ Fits 8 (-128) ∧ ((2 ^ 8 : Nat) : Int) ∣ 128 - -128 ∧ 1 ≤ 1 ∧ Fits 1 (-1) ∧ ((2 ^ 1 : Nat) : Int) ∣ 1 - -1 := by
  decide

theorem witness_DivQuotientRoundsTowardZero :
    (Fits 8 (-7) ∧ Fits 8 2 ∧ (2 : Int) ≠ 0 ∧ (-7 : Int) ≤ 0 ∧ ¬ ((-7 : Int) = minCell 8 ∧ (2 : Int) = -1)) ∧
    (Fits 8 127 ∧ Fits 8 (-1) ∧ (0 : Int) ≤ 127 ∧ ¬ ((127 : Int) = minCell 8 ∧ (-1 : Int) = -1)) ∧
    (Fits 8 (-128) ∧ Fits 8 (-1) ∧ (-128 : Int) = minCell 8) := by decide

theorem witness_CanonicalMemoriesWithEqualReadsAreEqual :
    Memory.wf [(0, 1), (7, -2)] ∧ Memory.wf (Memory.write [(7, -2)] 0 1) ∧
    ∀ p : Nat, Memory.read [(0, 1), (7, -2)] p = Memory.read (Memory.write [(7, -2)] 0 1) p :=
  ⟨by decide, by decide, fun _ => rfl⟩

/-- A resolution that succeeds and one that fails. -/
theorem witness_ResolveScalesAndChecksBothBounds :
    ((fresh 8).setMode 2).resolve 3 = some 6 ∧ ((fresh 8).setMode 2).resolve 4 = none := by decide

/-- One state for each class of MODE value. -/
theorem witness_ResolveByClassOfMode :
    1 ≤ (fresh 8).cfg.CAP ∧ (fresh 8).mode = 1 ∧ 1 < ((fresh 8).setMode 2).mode ∧ ((fresh 8).setMode 0).mode = 0 ∧
    ((fresh 8).setMode (-1)).mode < 0 := by decide

theorem witness_ResolveIsMonotoneBetween :
    let s := (fresh 8).setMode 2
    (0 : Int) ≤ 2 ∧ (2 : Int) ≤ 3 ∧ (s.resolve 0).isSome ∧ (s.resolve 3).isSome := by decide

/-- INCR 4 at logical 2 with MODE 3: its words stand at physical 6 and 9. -/
theorem witness_StepRunsTheDecodedInstruction :
    let s := machine 32 16 [] [(6, 19), (9, 4)] 2 0 0 3
    s.status = .running ∧ s.cfg.wf ∧ Instr.wellFormed s.cfg.W (.incr 4) = true ∧
    ∀ (k : Nat) (w : Int), (encode s.cfg (.incr 4))[k]? = some w → ∃ p : Nat, s.resolve (s.pc + k) = some p ∧ s.cell p = w := by
  refine ⟨rfl, by decide, by decide, fun k w h => ?_⟩
  match k, h with
  | 0, rfl => exact ⟨6, by decide, by decide⟩
  | 1, rfl => exact ⟨9, by decide, by decide⟩

theorem witness_OpcodeFetchFault :
    let s := machine 32 8 [29] [] 8 0 0 1
    s.status = .running ∧ s.resolve s.pc = none := by decide

theorem witness_IllegalOpcodeFault :
    let s := machine 32 8 [30] [] 0 0 0 1
    s.status = .running ∧ s.resolve s.pc = some 0 ∧ ∀ m : Mnemonic, s.cfg.opcodeOf m ≠ s.cell 0 :=
  ⟨rfl, by decide, fun m => by cases m <;> decide⟩

/-- JLT at 6 with CAP = 8: the word at 8 cannot be fetched. -/
theorem witness_OperandFetchFault :
    let s := machine 32 8 [] [(6, 9)] 6 0 0 1
    s.cfg.wf ∧ s.status = .running ∧ s.resolve s.pc = some 6 ∧ s.cell 6 = s.cfg.opcodeOf .jlt ∧
    1 ≤ 2 ∧ 2 < Mnemonic.jlt.width ∧ s.resolve (s.pc + (2 : Nat)) = none := by decide

theorem witness_RunningStepEndsInThreeWays : (machine 32 8 [29] [] 0 0 0 1).status = .running := rfl

theorem witness_StepOutsideARunTakesOneCommand :
    (fresh 32).status ≠ .running ∧ (fresh 32).commands = [] ∧
    ({ fresh 32 with commands := [.setPc 3, .start] } : State).commands = .setPc 3 :: [.start] := by decide

/-- A small running state and the state its step leaves. -/
def addState : State := machine 8 8 [127, 1, 1, 0, 1] [] 2 7 5 1

theorem inv_addState : addState.Inv where
  cfg_wf := by decide
  mem_wf := by decide
  mem_inRange := by decide
  mode_fits := by decide
  spLimit_range := by decide
  diagnostic := fun _ _ _ h => by cases h
  out_valid := fun _ h => by cases h

theorem witness_StepKeepsMachineInvariant :
    addState.Inv ∧ step addState = .next (after addState) ∧ (after addState).cell 0 = -128 :=
  ⟨inv_addState, rfl, by decide⟩

theorem witness_ConstructionGivesResetValues :
    cfg8.wf ∧ ¬ ({ cfg8 with W := 7 } : Config).wf ∧ ¬ ({ cfg8 with CAP := 0 } : Config).wf := by decide

theorem witness_FaultedIsFinal :
    ({ fresh 8 with status := .faulted .outOfCapacity 0 0, commands := [.start] } : State).status =
      .faulted .outOfCapacity 0 0 := rfl

/-- A step of each writer of a register: MODE, PUSH, PUSHP, POP, POPP. -/
theorem witness_RegisterWritersDuringARun :
    ∀ ws ∈ [[28, 0], [24, 7], [25, 7], [26, 7], [27, 7]],
      let s := machine 32 8 ws [] 0 6 2 1
      s.status = .running ∧ (∃ t, step s = .next t) := by
  simp only [List.mem_cons, List.not_mem_nil, or_false, forall_eq_or_imp, forall_eq]
  exact ⟨⟨rfl, _, rfl⟩, ⟨rfl, _, rfl⟩, ⟨rfl, _, rfl⟩, ⟨rfl, _, rfl⟩, ⟨rfl, _, rfl⟩⟩

/-- An INCR that changes cell 0. -/
theorem witness_AtMostOneCellWritten :
    let s := machine 32 8 [5] [] 0 0 0 1
    s.mem.wf ∧ exec (.incr 0) s = .next ((s.setCell 0 6).setPc 2) ∧ ((s.setCell 0 6).setPc 2).cell 0 ≠ s.cell 0 :=
  ⟨by decide, rfl, by decide⟩

/-- A PRINT past the end, and a POP whose access faults after the increment. -/
theorem witness_FaultsArePrecise :
    let s := machine 32 8 [5] [] 0 7 0 1
    s.status = .running ∧
    exec (.print 8) s = .next { s with status := .faulted .invalidAddress 0 7 } ∧
    exec (.pop 0) s = .next { s with sp := 8, status := .faulted .invalidAddress 0 8 } := ⟨rfl, rfl, rfl⟩

theorem witness_OutputLogOnlyGrowsByPrints :
    let s := machine 8 8 [5] [] 0 0 0 1
    s.status = .running ∧ (∃ t, exec (.print 0) s = .next t ∧ t.out = [.int 0 5]) ∧
    (∃ t, exec (.incr 0) s = .next t ∧ t.out = []) := ⟨rfl, ⟨_, rfl, rfl⟩, ⟨_, rfl, rfl⟩⟩

/-- A step of a run, and a loader write that raises SP_LIMIT. -/
theorem witness_SpLimitNeverDecreases :
    (∃ t, step addState = .next t ∧ t.spLimit = 5) ∧
    (∃ t, step { fresh 8 with commands := [.writeCell 7 1] } = .next t ∧ t.spLimit = 8) :=
  ⟨⟨_, rfl, rfl⟩, ⟨_, rfl, rfl⟩⟩

/-- R = 8 + ceil(log2 12) + 2 = 14 bits; the host's argument is the least of that range. -/
theorem witness_FiniteRegistersSuffice :
    ({ addState with commands := [.setPc (-8192)] } : State).Inv ∧ registerBits addState.cfg = 14 ∧
    Fits (registerBits addState.cfg) addState.pc ∧ Fits (registerBits addState.cfg) addState.sp ∧
    (Command.setPc (-8192)).ArgFits (registerBits addState.cfg) ∧
    ∃ t, step { addState with commands := [.setPc (-8192)] } = .next t := by
  have hR : registerBits addState.cfg = 14 := by decide
  refine ⟨?_, hR, ?_, ?_, ?_, _, rfl⟩
  · exact { inv_addState with }
  all_goals rw [hR]
  · decide
  · decide
  · show Fits 14 (-8192)
    decide

/-- Addresses 0 and CAP - 1 resolve; CAP and -1 do not. -/
theorem witness_AddSubMulResults :
    let s := machine 32 8 [5] [(7, 7)] 0 0 0 1
    s.resolve 0 = some 0 ∧ s.resolve 7 = some 7 ∧ s.resolve 8 = none ∧ s.resolve (-1) = none := by decide

/-- Dividend MIN; divisors 2, -1 and 0; a failing resolution. -/
theorem witness_DivResult :
    let s := machine 32 8 [-2147483648, 2, -1, 0] [] 0 0 0 1
    s.resolve 0 = some 0 ∧ s.resolve 1 = some 1 ∧ s.resolve 2 = some 2 ∧ s.resolve 3 = some 3 ∧
    (s.cell 1 ≠ 0 ∧ ¬ (s.cell 0 = minCell s.cfg.W ∧ s.cell 1 = -1)) ∧
    (s.cell 0 = minCell s.cfg.W ∧ s.cell 2 = -1) ∧ s.cell 3 = 0 ∧ s.resolve 8 = none := by decide

theorem witness_MoveResult :
    let s := machine 32 8 [5] [] 0 0 0 1
    s.resolve 7 = some 7 ∧ s.resolve 0 = some 0 ∧ s.resolve 8 = none := by decide

theorem witness_LoadResult :
    let s := machine 32 8 [5] [] 0 0 0 1
    s.mem.wf ∧ s.status = .running ∧ s.resolve 7 = some 7 ∧ s.resolve 8 = none := by decide

/-- Pointer cells 0 and 1 hold 7 and 6; cell 2 holds the bad pointer 8; address 8 does not resolve. -/
theorem witness_StoreAndStorepResults :
    let s := machine 32 8 [7, 6, 8] [] 0 0 0 1
    (s.resolve 0 = some 0 ∧ s.resolve (s.cell 0) = some 7 ∧ s.resolve 1 = some 1 ∧ s.resolve (s.cell 1) = some 6) ∧
    s.resolve 8 = none ∧ (s.resolve 2 = some 2 ∧ s.resolve (s.cell 2) = none) := by decide

theorem witness_AbsoluteJumpResults :
    let s := machine 32 8 [5, 5] [] 0 0 0 1
    s.resolve 0 = some 0 ∧ s.resolve 1 = some 1 ∧ s.resolve 8 = none := by decide

theorem witness_RelativeJumpResults :
    let s := machine 32 8 [5, 6] [] 3 0 0 1
    s.resolve 0 = some 0 ∧ s.resolve 1 = some 1 ∧ s.resolve (-1) = none := by decide

/-- JLE 0,0,8 with CAP = 8 is taken to 8, and so is JMP. -/
theorem witness_JumpTargetIsCheckedAtTheNextFetch :
    let s := machine 32 8 [] [] 0 0 0 1
    s.status = .running ∧ exec (.jle 0 0 8) s = .next (s.setPc 8) ∧ exec (.jmp 0 0 8) s = .next (s.setPc 8) ∧
    (s.setPc 8).status = .running ∧ (s.setPc 8).pc = 8 ∧ s.resolve 8 = none := ⟨rfl, rfl, rfl, rfl, rfl, rfl⟩

theorem witness_IncrDecrResults :
    let s := machine 32 8 [] [] 0 0 0 1
    s.resolve 7 = some 7 ∧ s.resolve 8 = none := by decide

theorem witness_PrintAndPrintcResults :
    let s := machine 8 8 [] [(7, -1)] 0 0 0 1
    s.resolve 7 = some 7 ∧ s.resolve 8 = none ∧ s.cfg.W = 8 ∧ (machine 9 8 [] [] 0 0 0 1).cfg.W ≠ 8 := by decide

/-- A string of two bytes that ends in the last cell; an empty one; one with no terminator; a failing resolution;
W other than 8. -/
theorem witness_PrintsResult :
    let s := machine 8 8 [] [(5, 72), (6, 105)] 0 0 0 1
    let u := machine 8 8 [] [(6, 72), (7, 105)] 0 0 0 1
    (s.cfg.W = 8 ∧ s.resolve 5 = some 5 ∧ 5 + 2 < s.cfg.CAP ∧ (∀ k < 2, s.cell (5 + k) ≠ 0) ∧ s.cell (5 + 2) = 0) ∧
    (s.resolve 7 = some 7 ∧ 7 + 0 < s.cfg.CAP ∧ s.cell (7 + 0) = 0) ∧
    (u.cfg.W = 8 ∧ u.resolve 6 = some 6 ∧ ∀ q : Nat, 6 ≤ q → q < u.cfg.CAP → u.cell q ≠ 0) ∧
    s.resolve 8 = none ∧ (machine 9 8 [] [] 0 0 0 1).cfg.W ≠ 8 := by
  refine ⟨by decide, by decide, ⟨rfl, by decide, fun q h1 h2 => ?_⟩, by decide, by decide⟩
  have h2 : q < 8 := h2
  obtain rfl | rfl : q = 6 ∨ q = 7 := by omega
  · decide
  · decide

/-- SP below, at and above SP_LIMIT; a good and a bad pointer; SP = CAP does not resolve. -/
theorem witness_PushResults :
    let s := machine 32 8 [1, 3, 8] [] 0 3 3 1
    (s.setSp 2).sp < s.spLimit ∧ s.spLimit ≤ s.sp ∧ s.resolve 0 = some 0 ∧ s.resolve (s.cell 0) = some 1 ∧
    s.resolve s.sp = some 3 ∧ s.resolve 8 = none ∧ (s.spLimit ≤ (s.setSp 8).sp ∧ (s.setSp 8).resolve (s.setSp 8).sp = none) ∧
    (s.resolve 2 = some 2 ∧ s.resolve (s.cell 2) = none) := by decide

/-- SP = CAP, CAP - 1 and CAP - 2; a good and a bad pointer. -/
theorem witness_PopResults :
    let s := machine 32 8 [1, 3, 8] [] 0 6 3 1
    (s.setSp 8).sp ≥ s.cfg.CAP ∧ s.sp < s.cfg.CAP ∧ s.resolve (s.sp + 1) = some 7 ∧ s.resolve 0 = some 0 ∧
    s.resolve (s.cell 0) = some 1 ∧ s.resolve 8 = none ∧ (s.resolve 2 = some 2 ∧ s.resolve (s.cell 2) = none) ∧
    (s.setSp 7).sp = (s.cfg.CAP : Int) - 1 := by decide

theorem witness_PushThenPopRoundTrip :
    let s := machine 32 8 [5] [] 0 3 2 2
    s.mem.wf ∧ s.status = .running ∧ s.spLimit ≤ s.sp ∧ s.resolve s.sp = some 6 ∧ s.resolve 0 = some 0 ∧
    s.resolve 1 = some 2 := by decide

theorem witness_PushesUntilOverflow :
    let s := machine 32 8 [5] [] 0 7 5 1
    s.status = .running ∧ s.spLimit ≤ s.sp ∧ s.resolve 0 = some 0 ∧
    ∀ x : Int, s.spLimit ≤ x → x ≤ s.sp → (s.resolve x).isSome := by
  refine ⟨rfl, by decide, by decide, fun x h1 h2 => ?_⟩
  have h1 : 5 ≤ x := h1
  have h2 : x ≤ 7 := h2
  obtain rfl | rfl | rfl : x = 5 ∨ x = 6 ∨ x = 7 := by omega
  all_goals decide

/-- A push at SP = SP_LIMIT, with a loaded cell just below. -/
theorem witness_PushChangesNoLoadedCell :
    let s := machine 32 8 [1, 4] [] 0 2 2 1
    s.mem.wf ∧ s.status = .running ∧ (∃ t, exec (.push 0) s = .next t ∧ t.cell 2 = 1) ∧
    (∃ t, exec (.pushp 0) s = .next t ∧ t.cell 2 = 4) ∧ ((1 : Nat) : Int) < s.spLimit :=
  ⟨by decide, rfl, ⟨_, rfl, rfl⟩, ⟨_, rfl, rfl⟩, by decide⟩

theorem witness_PushUnderModeZeroChangesNoCell :
    let s := machine 32 8 [7, 4] [] 0 7 7 0
    s.mem.wf ∧ s.mode = 0 ∧ s.spLimit ≤ s.sp ∧ 0 ≤ s.sp ∧ s.sp < s.cfg.CAP ∧ (0 : Int) ≤ 7 ∧ (7 : Int) < s.cfg.CAP ∧
    0 ≤ s.cell 0 ∧ s.cell 0 < s.cfg.CAP := by decide

/-- MODE 2 at logical 0: word 1 of the next instruction is physical 6, word 2 is out of range. -/
theorem witness_ModeRescalesTheNextFetch :
    let s := machine 32 8 [28, 2] [(6, 3)] 0 0 0 1
    (0 ≤ s.pc + 2 + (1 : Nat) ∧ s.pc + 2 + (1 : Nat) < s.cfg.CAP ∧ ((6 : Nat) : Int) = 2 * (s.pc + 2 + (1 : Nat)) ∧
      6 < s.cfg.CAP) ∧
    (s.cfg.CAP : Int) ≤ 2 * (s.pc + 2 + (2 : Nat)) ∧ -1 * (s.pc + 2 + (0 : Nat)) < 0 := by decide

/-- One of each shape: a jump, a print, MODE, HALT. -/
theorem witness_FrameOfInstructionsThatStoreNothing :
    let s := machine 32 8 [5] [] 0 0 0 1
    ∀ i ∈ [Instr.rjlt 0 0 4, .jmp 0 0 3, .print 7, .mode 2, .halt],
      i.mnemonic ∈ [Mnemonic.jlt, .jle, .jge, .jgt, .jmp, .rjlt, .rjle, .rjge, .rjgt, .rjmp, .print, .printc, .prints,
        .mode, .halt] ∧ ∃ t, exec i s = .next t := by
  simp only [List.mem_cons, List.not_mem_nil, or_false, forall_eq_or_imp, forall_eq]
  exact ⟨⟨by decide, _, rfl⟩, ⟨by decide, _, rfl⟩, ⟨by decide, _, rfl⟩, ⟨by decide, _, rfl⟩, ⟨by decide, _, rfl⟩⟩

/-- An ADD that completes, and one whose destination does not resolve. -/
theorem witness_FrameOfInstructionsThatStoreToAnAddress :
    let s := machine 32 8 [5, 6] [] 0 0 0 1
    s.mem.wf ∧ (Instr.add 0 1).operands.head? = some 0 ∧ s.resolve 0 = some 0 ∧
    (∃ t, exec (.add 0 1) s = .next t ∧ t.cell 0 = 11) ∧
    (Instr.add 8 1).operands.head? = some 8 ∧ s.resolve 8 = none ∧ ∃ t, exec (.add 8 1) s = .next t :=
  ⟨by decide, rfl, by decide, ⟨_, rfl, by decide⟩, rfl, by decide, ⟨_, rfl⟩⟩

/-- Pointer cells 0 and 1 are good, cell 2 holds the bad pointer 8; then a pointer, a pointer's value, a source and a
source pointer's value that do not resolve. -/
theorem witness_FrameOfInstructionsThatStoreThroughAPointer :
    let s := machine 32 8 [7, 6, 8] [] 0 0 0 1
    s.mem.wf ∧ s.resolve 0 = some 0 ∧ s.resolve (s.cell 0) = some 7 ∧ s.resolve 8 = none ∧
    (s.resolve 2 = some 2 ∧ s.resolve (s.cell 2) = none) ∧
    (∃ t, exec (.store 0 1) s = .next t ∧ t.cell 7 = 6) ∧ (∃ t, exec (.storep 0 1) s = .next t) ∧
    (∃ t, exec (.store 8 1) s = .next t) ∧ (∃ t, exec (.store 2 1) s = .next t) ∧
    (∃ t, exec (.store 0 8) s = .next t) ∧ (∃ t, exec (.storep 0 2) s = .next t) :=
  ⟨by decide, by decide, by decide, by decide, by decide, ⟨_, rfl, by decide⟩, ⟨_, rfl⟩, ⟨_, rfl⟩, ⟨_, rfl⟩, ⟨_, rfl⟩,
    ⟨_, rfl⟩⟩

/-- The four with everything resolving; with a bad operand 8; PUSHP and POPP with the bad pointer in cell 2; and, at
SP = CAP for a push and CAP - 1 for a pop, a stack address that does not resolve. -/
theorem witness_FrameOfStackInstructions :
    let s := machine 32 8 [5, 6, 8] [] 0 4 2 1
    s.mem.wf ∧ s.resolve s.sp = some 4 ∧ s.resolve (s.sp + 1) = some 5 ∧ s.resolve 0 = some 0 ∧
    s.resolve (s.cell 0) = some 5 ∧ s.resolve 8 = none ∧ (s.resolve 2 = some 2 ∧ s.resolve (s.cell 2) = none) ∧
    (s.setSp 8).resolve (s.setSp 8).sp = none ∧ (s.setSp 7).resolve ((s.setSp 7).sp + 1) = none ∧
    (∀ i ∈ [Instr.push 0, .pushp 0, .pop 0, .popp 0, .push 8, .pop 8, .pushp 2, .popp 2], ∃ t, exec i s = .next t) ∧
    (∃ t, exec (.push 0) (s.setSp 8) = .next t) ∧ ∃ t, exec (.pop 0) (s.setSp 7) = .next t := by
  refine ⟨by decide, by decide, by decide, by decide, by decide, by decide, by decide, by decide, by decide, ?_,
    ⟨_, rfl⟩, ⟨_, rfl⟩⟩
  simp only [List.mem_cons, List.not_mem_nil, or_false, forall_eq_or_imp, forall_eq]
  exact ⟨⟨_, rfl⟩, ⟨_, rfl⟩, ⟨_, rfl⟩, ⟨_, rfl⟩, ⟨_, rfl⟩, ⟨_, rfl⟩, ⟨_, rfl⟩, ⟨_, rfl⟩⟩

/-- A state for each column of R236. -/
theorem witness_HostCommandsByStatus :
    (machine 8 8 [] [] 0 0 0 1).status = .running ∧
    (afterCommand (.writeCell 8 1) (fresh 8)).status = .faulted .outOfCapacity 0 0 ∧
    (fresh 8).status = .idle ∧ ((fresh 8).setStatus .halted).status = .halted := by decide

/-- A write that ends at CAP, ones out of range at either end, an empty one, a single value, the first value too wide. -/
theorem witness_LoaderWritesCells :
    let s := fresh 8
    s.mem.wf ∧ s.status = .idle ∧ ((fresh 8).setStatus .halted).status = .halted ∧
    (∀ v ∈ [127, -128], Fits s.cfg.W v) ∧ (0 : Int) ≤ 6 ∧ (6 : Int) + ([127, -128] : List Int).length ≤ s.cfg.CAP ∧
    (7 : Int) + ([127, -128] : List Int).length > s.cfg.CAP ∧ (-1 : Int) < 0 ∧ ([127] : List Int) = [127] ∧
    (∀ v ∈ ([] : List Int), Fits s.cfg.W v) ∧ 128 ∈ ([127, 128] : List Int) ∧ ¬ Fits s.cfg.W 128 := by decide

theorem witness_WriteBytesNeedsByteCells :
    (fresh 8).status = .idle ∧ (fresh 8).cfg.W = 8 ∧ (fresh 9).status = .idle ∧ (fresh 9).cfg.W ≠ 8 := by decide

/-- Two writes, the second up to CAP; and an empty one alone. -/
theorem witness_SpLimitCoversEverythingLoaded :
    (∃ t, runSteps 2 { State.initial cfg8 with commands := [.writeCells 0 [1, 2], .writeCells 7 [3]] } = .next t ∧
      t.status = .idle ∧ t.spLimit = 8) ∧
    (∃ t, runSteps 1 { State.initial cfg8 with commands := [.writeCells 3 []] } = .next t ∧
      t.status = .idle ∧ t.spLimit = 0) := ⟨⟨_, rfl, rfl, rfl⟩, ⟨_, rfl, rfl, rfl⟩⟩

theorem witness_RestartAtTheHaltHaltsAtOnce :
    let s := { machine 32 8 [29] [] 0 0 0 1 with status := .halted, commands := [.start, .setPc 1] }
    s.status = .halted ∧ s.commands = .start :: [.setPc 1] ∧ fetchInstr s = .ok .halt := ⟨rfl, rfl, rfl⟩

/-- A run that ends at its second step with fuel left over, and one that does not end within 1. -/
theorem witness_RunUnderFuelEndsWhereTheRunEnds :
    let s := machine 32 8 [19, 7, 29] [] 0 0 0 1
    s.status = .running ∧ (∃ t, run 1 s = .next t ∧ t.status = .running) ∧ (∃ t, run 5 s = .next t ∧ t.status = .halted) :=
  ⟨rfl, ⟨_, rfl, rfl⟩, ⟨_, rfl, rfl⟩⟩

theorem witness_StartWithNothingLoadedIsIllegal : 8 ≤ 8 ∧ 1 ≤ 1 := by decide

/-- HALT, and an opcode word 0, each run by one step. -/
theorem witness_ResultIsShownOnceTheRunHasEnded :
    let h := machine 8 8 [29] [] 0 0 0 1
    let f := machine 8 8 [] [] 0 0 0 1
    (fresh 8).status = .idle ∧ h.status = .running ∧ f.status = .running ∧
    (step h = .next (after h) ∧ (after h).status = .halted) ∧
    (step f = .next (after f) ∧ (after f).status = .faulted .illegalInstruction 0 0 ∧
      Fault.illegalInstruction ≠ .outOfCapacity) :=
  ⟨rfl, rfl, rfl, ⟨rfl, rfl⟩, rfl, rfl, by decide⟩

end Sys2Proof.Tests
end

section
/-! The wrap of R10: congruence in the form of a divisibility, and the uniqueness of the representative. -/

namespace Sys2Proof.Machine

/-- The congruence of `wrap_emod` as a divisibility: `v` and `wrap_W(v)` differ by a multiple of `2^W` (R10). -/
theorem dvd_sub_wrap (W : Nat) (v : Int) : ((2 ^ W : Nat) : Int) ∣ v - wrap W v :=
  Int.ModEq.dvd (wrap_emod W v)

/-- Two integers have the same wrap exactly when they are congruent modulo `2^W` (R10). -/
theorem wrap_eq_wrap_iff_dvd_sub {W : Nat} {v r : Int} : wrap W v = wrap W r ↔ ((2 ^ W : Nat) : Int) ∣ v - r :=
  Int.bmod_eq_bmod_iff_bmod_sub_eq_zero.trans Int.dvd_iff_bmod_eq_zero.symm

/-- Settles O6: `wrap` meets both conditions of R10, and any other value that meets them has the wrap of `v` and,
being in range, is its own wrap. -/
theorem wrapIsTheUniqueRepresentative : Obligations.WrapIsTheUniqueRepresentative := by
  intro W v hW
  refine ⟨fits_wrap hW v, dvd_sub_wrap W v, fun r hr hdvd => ?_⟩
  calc r = wrap W r := (wrap_of_fits hW hr).symm
    _ = wrap W v := (wrap_eq_wrap_iff_dvd_sub.2 hdvd).symm

end Sys2Proof.Machine
end

section
/-! Memory data: two canonical memories that no read tells apart are equal. -/

namespace Sys2Proof.Machine

namespace Memory

/-- A canonical memory reads a non-zero value at its first listed index. -/
theorem read_head_ne_zero {q : Nat} {w : Int} {m : Memory} (h : Memory.wf ((q, w) :: m)) :
    Memory.read ((q, w) :: m) q ≠ 0 := by
  simpa [Memory.read] using (wf_cons.1 h).2.1

/-- A canonical memory reads 0 below its first listed index. -/
theorem read_below_head {q p : Nat} {w : Int} {m : Memory} (h : Memory.wf ((q, w) :: m)) (hp : p < q) :
    Memory.read ((q, w) :: m) p = 0 :=
  read_eq_zero_of_lt (List.forall_mem_cons.2 ⟨hp, fun e he => hp.trans ((wf_cons.1 h).1 e he)⟩)

/-- What the tail of a canonical memory reads: 0 at the head's index, and elsewhere what the whole reads. -/
theorem read_tail {q : Nat} {w : Int} {m : Memory} (h : Memory.wf ((q, w) :: m)) (p : Nat) :
    Memory.read m p = if p = q then 0 else Memory.read ((q, w) :: m) p := by
  split_ifs with hp
  · exact read_eq_zero_of_lt (hp ▸ (wf_cons.1 h).1)
  · simp [Memory.read, hp]

/-- Canonical memories are equal when every read of them is (R30, R67). -/
theorem eq_of_read_eq {m n : Memory} (hm : m.wf) (hn : n.wf) (h : ∀ p, m.read p = n.read p) : m = n := by
  induction m generalizing n with
  | nil =>
    cases n with
    | nil => rfl
    | cons e n => exact absurd (h e.1).symm (read_head_ne_zero hn)
  | cons e m ih =>
    cases n with
    | nil => exact absurd (h e.1) (read_head_ne_zero hm)
    | cons d n =>
      obtain ⟨q, w⟩ := e
      obtain ⟨r, v⟩ := d
      have hqr : q = r := by
        rcases lt_trichotomy q r with hlt | heq | hgt
        · exact absurd ((h q).trans (read_below_head hn hlt)) (read_head_ne_zero hm)
        · exact heq
        · exact absurd ((h r).symm.trans (read_below_head hm hgt)) (read_head_ne_zero hn)
      subst hqr
      have hwv : w = v := by simpa [Memory.read] using h q
      have htail : m = n := ih (wf_cons.1 hm).2.2 (wf_cons.1 hn).2.2 fun p => by
        rw [read_tail hm, read_tail hn, h p]
      rw [hwv, htail]

end Memory

/-- Settles O8: the two lists are compared entry by entry; the first listed index of each reads non-zero, so neither
can lie below the other's. -/
theorem canonicalMemoriesWithEqualReadsAreEqual : Obligations.CanonicalMemoriesWithEqualReadsAreEqual :=
  fun _ _ => Memory.eq_of_read_eq

end Sys2Proof.Machine
end

section
/-! What one step can do, said once for every status, and the operands of an instruction whose mnemonic is known. -/

namespace Sys2Proof

/-- PUSH and PUSHP have one operand. -/
theorem Instr.eq_push_or_pushp {i : Instr} (h : i.mnemonic = .push ∨ i.mnemonic = .pushp) :
    ∃ a, i = .push a ∨ i = .pushp a := by
  cases i <;> simp [Instr.mnemonic] at h ⊢

/-- POP and POPP have one operand. -/
theorem Instr.eq_pop_or_popp {i : Instr} (h : i.mnemonic = .pop ∨ i.mnemonic = .popp) :
    ∃ a, i = .pop a ∨ i = .popp a := by
  cases i <;> simp [Instr.mnemonic] at h ⊢

/-- A print instruction is its mnemonic and its one operand. -/
theorem Instr.eq_print {i : Instr} {a : Int} (h : i.mnemonic = .print ∨ i.mnemonic = .printc ∨ i.mnemonic = .prints)
    (ha : i.operands = [a]) : i = .print a ∨ i = .printc a ∨ i = .prints a := by
  cases i <;> simp [Instr.mnemonic] at h <;> simpa [Instr.operands] using ha

end Sys2Proof

namespace Sys2Proof.Machine

variable {s t : State} {i : Instr}

/-- The fetch raises InvalidAddress or IllegalInstruction and no other kind (R103 to R105). -/
theorem fetchInstr_error {k : Fault} (h : fetchInstr s = .error k) : k = .invalidAddress ∨ k = .illegalInstruction := by
  unfold fetchInstr at h
  split at h
  · cases h; exact .inl rfl
  · split at h
    · cases h; exact .inr rfl
    · split at h
      · cases h; exact .inl rfl
      · cases h

/-- An instruction is fetched only from a `PC` that resolves (R103). -/
theorem pc_range_of_fetchInstr (h : fetchInstr s = .ok i) : 0 ≤ s.pc ∧ s.pc < s.cfg.CAP := by
  unfold fetchInstr at h
  split at h
  · cases h
  · rename_i w hw
    obtain ⟨p, hp, -⟩ := Option.map_eq_some_iff.1 hw
    simpa using (resolve_eq_some.1 hp).1

/-- Everything a step of a running machine can do: the fault its fetch raised, or the fetched instruction's effect. -/
theorem running_step_cases (hs : s.status = .running) (h : step s = .next t) :
    (∃ k, k ≠ .outOfCapacity ∧ t = s.faultWith k) ∨ ∃ i, fetchInstr s = .ok i ∧ Effect i s t := by
  rw [step_running hs] at h
  cases hf : fetchInstr s with
  | error k =>
    simp only [hf, raise_eq] at h
    cases h
    exact .inl ⟨k, by rcases fetchInstr_error hf with rfl | rfl <;> decide, rfl⟩
  | ok i =>
    simp only [hf] at h
    exact .inr ⟨i, rfl, exec_cases h⟩

/-- Everything a step outside a run can do: nothing, or the first pending command (R236). -/
theorem not_running_step_cases (hs : s.status ≠ .running) (h : step s = .next t) :
    t = s ∨ ∃ c cs, s.commands = c :: cs ∧ command c { s with commands := cs } = .next t := by
  rw [step_not_running hs, takeCommand] at h
  split at h
  · cases h; exact .inl rfl
  · exact .inr ⟨_, _, ‹_›, h⟩

/-- No instruction writes the parameters. -/
theorem Effect.cfg_eq (h : Effect i s t) : t.cfg = s.cfg := by cases h <;> rfl

/-- No instruction takes a host command. -/
theorem Effect.commands_eq (h : Effect i s t) : t.commands = s.commands := by cases h <;> rfl

/-- No instruction writes `SP_LIMIT` (R27). -/
theorem Effect.spLimit_eq (h : Effect i s t) : t.spLimit = s.spLimit := by cases h <;> rfl

/-- Only MODE writes `MODE` (R27). -/
theorem Effect.mode_cases (h : Effect i s t) : t.mode = s.mode ∨ ∃ k, i = .mode k ∧ t.mode = k := by
  cases h with
  | mode k hi => exact .inr ⟨k, hi, rfl⟩
  | fault | popFault | cell | jump | sequential | emit | push | pop | halt => exact .inl rfl

/-- Only the stack instructions write `SP` (R27): a push takes one off it, a pop adds one. -/
theorem Effect.sp_cases (h : Effect i s t) :
    t.sp = s.sp ∨ (∃ a, (i = .push a ∨ i = .pushp a) ∧ t.sp = s.sp - 1) ∨
      ∃ a, (i = .pop a ∨ i = .popp a) ∧ t.sp = s.sp + 1 := by
  cases h with
  | push d v hi =>
    obtain ⟨a, ha⟩ := Instr.eq_push_or_pushp hi
    exact .inr (.inl ⟨a, ha, rfl⟩)
  | popFault hi =>
    obtain ⟨a, ha⟩ := Instr.eq_pop_or_popp hi
    exact .inr (.inr ⟨a, ha, rfl⟩)
  | pop d v hi =>
    obtain ⟨a, ha⟩ := Instr.eq_pop_or_popp hi
    exact .inr (.inr ⟨a, ha, rfl⟩)
  | fault | cell | jump | sequential | emit | mode | halt => exact .inl rfl

/-- Only the prints append to the output log, one record each, and none that faults (R170). -/
theorem Effect.out_cases (h : Effect i s t) :
    t.out = s.out ∨ (t.status = s.status ∧ ∃ r : OutRecord, t.out = s.out ++ [r] ∧
      (i = .print r.addr ∨ i = .printc r.addr ∨ i = .prints r.addr)) := by
  cases h with
  | emit r hi ha => exact .inr ⟨rfl, r, rfl, Instr.eq_print hi ha⟩
  | fault | popFault | cell | jump | sequential | push | pop | mode | halt => exact .inl rfl

/-- What the status is after an instruction: as before, Halted after HALT, or the record of a fault that no loader
raises, with `PC` as before (R208). -/
theorem Effect.status_cases (h : Effect i s t) :
    t.status = s.status ∨ (i = .halt ∧ t.status = .halted) ∨
      ∃ k, k ≠ .outOfCapacity ∧ t.mem = s.mem ∧ t.pc = s.pc ∧ t.status = .faulted k s.pc t.sp := by
  cases h with
  | fault k hk => exact .inr (.inr ⟨k, hk, rfl, rfl, rfl⟩)
  | popFault => exact .inr (.inr ⟨_, by decide, rfl, rfl, rfl⟩)
  | halt hi => exact .inr (.inl ⟨hi, rfl⟩)
  | cell | jump | sequential | emit | push | pop | mode => exact .inl rfl

/-- Settles O22: each register by the instructions that write it. -/
theorem registerWritersDuringARun : Obligations.RegisterWritersDuringARun := by
  intro s t hs h
  rcases running_step_cases hs h with ⟨k, -, rfl⟩ | ⟨i, hf, he⟩
  · exact ⟨rfl, rfl, rfl, .inl rfl, .inl rfl⟩
  · simp only [hf, Except.ok.injEq]
    exact ⟨he.cfg_eq, he.commands_eq, he.spLimit_eq, he.mode_cases, he.sp_cases⟩

/-- Settles O25, by the effect of the one instruction executed. -/
theorem outputLogOnlyGrowsByPrints : Obligations.OutputLogOnlyGrowsByPrints := by
  intro i s t hs h
  rcases (exec_cases h).out_cases with ho | ⟨ht, r, ho, hi⟩
  · exact .inl ho
  · exact .inr ⟨ht.trans hs, r, ho, r.addr, rfl, hi⟩

/-- The step that ends a run leaves Halted or a fault that no loader raises (R100, R202). -/
theorem running_step_ends (hs : s.status = .running) (h : step s = .next t) (ht : t.status ≠ .running) :
    t.status = .halted ∨ ∃ (k : Fault) (p q : Int), t.status = .faulted k p q ∧ k ≠ .outOfCapacity := by
  rcases running_step_cases hs h with ⟨k, hk, rfl⟩ | ⟨i, -, he⟩
  · exact .inr ⟨k, s.pc, s.sp, rfl, hk⟩
  · rcases he.status_cases with hst | ⟨-, hst⟩ | ⟨k, hk, -, -, hst⟩
    · exact absurd (hst.trans hs) ht
    · exact .inl hst
    · exact .inr ⟨k, s.pc, t.sp, hst, hk⟩

/-- What the status interface shows where the status is terminal (R36). -/
theorem shownRegisters_of_terminal (h : s.status.terminal = true) :
    s.shownRegisters = some { pc := s.pc, sp := s.sp, spLimit := s.spLimit, mode := s.mode } := if_pos h

/-- Nothing is shown where the status is not terminal (R36). -/
theorem shownRegisters_of_not_terminal (h : s.status.terminal = false) : s.shownRegisters = none := by
  simp [State.shownRegisters, h]

/-- Settles O60: what is shown depends on whether the status is terminal, and a run's last step leaves a terminal
one. -/
theorem resultIsShownOnceTheRunHasEnded : Obligations.ResultIsShownOnceTheRunHasEnded := by
  refine fun s => ⟨fun h => ?_, fun h => ?_, fun t hs h ht => running_step_ends hs h ht⟩
  · have hr : s.shownRegisters = none :=
      shownRegisters_of_not_terminal (by rcases h with h | h <;> rw [h] <;> rfl)
    exact ⟨hr, by simp [State.runResult, hr]⟩
  · have hr := shownRegisters_of_terminal (s := s) (by rcases h with h | ⟨k, p, q, h, -⟩ <;> rw [h] <;> rfl)
    exact ⟨hr, by simp [State.runResult, hr]⟩

end Sys2Proof.Machine
end

section
/-! The machine invariant: one lemma per operation of the state that keeps it, then instructions, host commands and the
step, which are made of these operations. -/

namespace Sys2Proof.Machine

/-- The status holds no diagnostic record, so nothing ties `PC` and `SP` to it. -/
abbrev State.NotFaulted (s : State) : Prop := ∀ k p q, s.status ≠ .faulted k p q

variable {s t : State} {i : Instr}

namespace State

theorem notFaulted_of_running (h : s.status = .running) : s.NotFaulted := by simp [NotFaulted, h]

theorem notFaulted_of_idle_or_halted (h : s.status = .idle ∨ s.status = .halted) : s.NotFaulted := by
  rcases h with h | h <;> simp [NotFaulted, h]

namespace Inv

theorem setPc (h : s.Inv) (hn : s.NotFaulted) (a : Int) : (s.setPc a).Inv :=
  { h with diagnostic := fun k p q hs => absurd hs (hn k p q) }

theorem advance (h : s.Inv) (hn : s.NotFaulted) (n : Nat) : (s.advance n).Inv := h.setPc hn _

theorem setSp (h : s.Inv) (hn : s.NotFaulted) (a : Int) : (s.setSp a).Inv :=
  { h with diagnostic := fun k p q hs => absurd hs (hn k p q) }

theorem setMode (h : s.Inv) {k : Int} (hk : Fits s.cfg.W k) : (s.setMode k).Inv := { h with mode_fits := hk }

theorem setCell (h : s.Inv) {d : Nat} {v : Int} (hd : d < s.cfg.CAP) (hv : Fits s.cfg.W v) : (s.setCell d v).Inv :=
  { h with
    mem_wf := Memory.write_wf h.mem_wf d v
    mem_inRange := Memory.write_inRange h.mem_inRange hd hv }

theorem emit (h : s.Inv) {r : OutRecord} (hr : r.Valid s.cfg.W) : (s.emit r).Inv :=
  { h with out_valid := List.forall_mem_append.2 ⟨h.out_valid, by simpa using hr⟩ }

theorem setStatus (h : s.Inv) {x : Status} (hx : ∀ k p q, x ≠ .faulted k p q) : (s.setStatus x).Inv :=
  { h with diagnostic := fun k p q hs => absurd hs (hx k p q) }

/-- Fault entry records `PC` and `SP` as they are (R208). -/
theorem faultWith (h : s.Inv) (k : Fault) : (s.faultWith k).Inv :=
  { h with diagnostic := fun _ _ _ hs => by cases hs; exact ⟨rfl, rfl⟩ }

theorem loaded (h : s.Inv) {a : Int} {vs : List Int} (h0 : 0 ≤ a) (hr : a + vs.length ≤ s.cfg.CAP)
    (hv : ∀ v ∈ vs, Fits s.cfg.W v) : (s.loaded a vs).Inv :=
  { h with
    mem_wf := Memory.writeAll_wf h.mem_wf a.toNat vs
    mem_inRange := Memory.writeAll_inRange h.mem_inRange (by omega) hv
    spLimit_range := ⟨h.spLimit_range.1.trans (le_max_left _ _), max_le h.spLimit_range.2 hr⟩ }

theorem withCommands (h : s.Inv) (cs : List Command) : { s with commands := cs }.Inv := { h with }

end Inv

end State

/-- Every instruction the machine can fetch keeps the invariant. -/
theorem Effect.inv (he : Effect i s t) (h : s.Inv) (hn : s.NotFaulted) (hw : i.wellFormed s.cfg.W = true) : t.Inv := by
  cases he with
  | fault k => exact h.faultWith k
  | popFault => exact (h.setSp hn _).faultWith _
  | cell d v _ hd hv => exact (h.setCell hd (hv h.cfg_wf h.mem_inRange hw)).advance hn _
  | jump a => exact h.setPc hn a
  | sequential => exact h.advance hn _
  | emit r _ _ hr => exact (h.emit (hr h.mem_inRange hw)).advance hn _
  | push d v _ _ hd hv => exact ((h.setCell (resolve_lt hd) (hv h.mem_inRange)).setSp hn _).advance hn _
  | pop d v _ _ hd hv => exact ((h.setSp hn (s.sp + 1)).setCell hd (hv h.mem_inRange)).advance hn _
  | mode k hi =>
    subst hi
    have hk : Fits s.cfg.W k := by simpa [Instr.wellFormed] using hw
    exact (h.setMode hk).advance hn _
  | halt => exact h.setStatus (by simp)

/-- Every accepted host command keeps the invariant. -/
theorem HostEffect.inv (he : HostEffect s t) (h : s.Inv) (hn : s.NotFaulted) : t.Inv := by
  cases he with
  | nothing => exact h
  | outOfCapacity => exact h.faultWith _
  | loaded a vs _ h0 hr hv => exact h.loaded h0 hr hv
  | setPc a => exact h.setPc hn a
  | setSp a => exact h.setSp hn a
  | start => exact h.setStatus (by simp)

/-- Every host command the machine takes keeps the invariant. -/
theorem command_inv {c : Command} (hc : command c s = .next t) (h : s.Inv) : t.Inv := by
  rcases command_cases hc with ⟨hs, he⟩ | ⟨-, rfl⟩
  · exact he.inv h (State.notFaulted_of_idle_or_halted hs)
  · exact h

/-- Settles O18: during a run by the effect of the fetched instruction, which is well formed because memory is in range;
outside one by the host command taken. -/
theorem stepKeepsMachineInvariant : Obligations.StepKeepsMachineInvariant := by
  intro s t h hst
  by_cases hs : s.status = .running
  · rcases running_step_cases hs hst with ⟨k, -, rfl⟩ | ⟨i, hf, he⟩
    · exact h.faultWith k
    · exact he.inv h (State.notFaulted_of_running hs) (fetchInstr_wellFormed h.mem_inRange hf)
  · rcases not_running_step_cases hs hst with rfl | ⟨c, cs, -, hc⟩
    · exact h
    · exact command_inv hc (h.withCommands cs)

/-- What the machine adds to `PC` and `SP`, and the reset value of `MODE`, are W-bit values. -/
theorem fits_of_le_four {W : Nat} (hW : 8 ≤ W) {v : Int} (h1 : -4 ≤ v) (h2 : v ≤ 4) : Fits W v := by
  have h : 2 ^ 7 ≤ 2 ^ (W - 1) := Nat.pow_le_pow_right (by decide) (by omega)
  simp only [Fits, minCell, maxCell]
  omega

/-- A newly constructed machine meets the invariant when its parameters are legal (R35). -/
theorem initial_inv {c : Config} (hc : c.wf) : (State.initial c).Inv where
  cfg_wf := hc
  mem_wf := by simp [Memory.wf]
  mem_inRange := by simp [Memory.inRange]
  mode_fits := fits_of_le_four hc.1 (by simp) (by simp)
  spLimit_range := by simp
  diagnostic := by simp
  out_valid := by simp

/-- Settles O19: the reset state is an initial one, and its parameters are legal. -/
theorem resetMeetsMachineInvariant : Obligations.ResetMeetsMachineInvariant := initial_inv (by decide)

/-- Settles O20: construction answers the initial state, or refuses. -/
theorem constructionGivesResetValues : Obligations.ConstructionGivesResetValues := fun c =>
  ⟨fun hc => ⟨State.initial c, if_pos hc, initial_inv hc, rfl, fun _ => rfl, rfl, rfl, rfl, rfl, rfl, rfl⟩,
    fun hc => if_neg hc⟩

end Sys2Proof.Machine
end

section
/-! The registers `PC` and `SP` stay in `R = W + ceil(log2(CAP + 4)) + 2` signed bits (R26): what a step writes to them
is a host argument, or lies near a cell value or an address of the array. -/

namespace Sys2Proof

theorem Mnemonic.width_le_four (m : Mnemonic) : m.width ≤ 4 := by cases m <;> decide

end Sys2Proof

namespace Sys2Proof.Machine

variable {s t : State} {i : Instr} {c : Command}

/-- `R - 1` bits hold the largest magnitude of a cell and the addresses past the array an instruction can reach, added
together. -/
theorem add_le_two_pow_registerBits {c : Config} (hW : 8 ≤ c.W) :
    2 ^ (c.W - 1) + (c.CAP + 4) ≤ 2 ^ (registerBits c - 1) :=
  calc 2 ^ (c.W - 1) + (c.CAP + 4)
      ≤ 2 ^ (c.W - 1) * (c.CAP + 4) :=
        Nat.add_le_mul (Nat.le_self_pow (by omega) 2) (by omega)
    _ ≤ 2 ^ (c.W - 1) * 2 ^ Nat.clog 2 (c.CAP + 4) :=
        Nat.mul_le_mul_left _ (Nat.le_pow_clog (by decide) _)
    _ = 2 ^ (c.W - 1 + Nat.clog 2 (c.CAP + 4)) := (pow_add ..).symm
    _ ≤ 2 ^ (registerBits c - 1) := Nat.pow_le_pow_right (by decide) (by simp only [registerBits]; omega)

/-- A value that is a cell value away from an address of the array, or from one up to four words past it, fits in a
register (R26). -/
theorem fits_registerBits {c : Config} (hW : 8 ≤ c.W) {x b : Int} (hx : Fits c.W (x - b)) (h0 : 0 ≤ b)
    (hb : b ≤ c.CAP + 4) : Fits (registerBits c) x := by
  have h := add_le_two_pow_registerBits hW
  simp only [Fits, minCell, maxCell] at hx ⊢
  omega

/-- `PC` after an instruction is a W-bit value, or a W-bit distance from where it was (R106, R141, R142). -/
theorem Effect.pc_near (he : Effect i s t) (hW : 8 ≤ s.cfg.W) (hw : i.wellFormed s.cfg.W = true) :
    Fits s.cfg.W t.pc ∨ Fits s.cfg.W (t.pc - s.pc) := by
  have hseq : ∀ n : Nat, n ≤ 4 → Fits s.cfg.W (s.pc + n - s.pc) := fun n hn =>
    fits_of_le_four hW (by omega) (by omega)
  cases he with
  | jump a _ ha => exact ha hw
  | cell | sequential => exact .inr (hseq _ i.mnemonic.width_le_four)
  | emit | push | pop | mode => exact .inr (hseq 2 (by decide))
  | fault | popFault | halt => exact .inr (by simpa using hseq 0 (by decide))

/-- An instruction fetched from an address of the array leaves `PC` in the register range. -/
theorem Effect.pc_fits (he : Effect i s t) (hW : 8 ≤ s.cfg.W) (hf : fetchInstr s = .ok i)
    (hw : i.wellFormed s.cfg.W = true) : Fits (registerBits s.cfg) t.pc := by
  obtain ⟨h0, hlt⟩ := pc_range_of_fetchInstr hf
  rcases he.pc_near hW hw with h | h
  · exact fits_registerBits hW (b := 0) (by simpa using h) le_rfl (by omega)
  · exact fits_registerBits hW h h0 (by omega)

/-- An instruction leaves `SP` in the register range: a push starts from an address of the array, a pop from below
`CAP`. -/
theorem Effect.sp_fits (he : Effect i s t) (hW : 8 ≤ s.cfg.W) (hsp : Fits (registerBits s.cfg) s.sp) :
    Fits (registerBits s.cfg) t.sp := by
  have hpop : s.sp < s.cfg.CAP → Fits (registerBits s.cfg) (s.sp + 1) := fun hlt => by
    have hcap : Fits (registerBits s.cfg) s.cfg.CAP :=
      fits_registerBits hW (b := s.cfg.CAP) (fits_of_le_four hW (by omega) (by omega)) (by omega) (by omega)
    exact ⟨by have := hsp.1; omega, by have := hcap.2; omega⟩
  cases he with
  | push d v _ _ hd =>
    obtain ⟨h0, hlt⟩ := (resolve_eq_some.1 hd).1
    exact fits_registerBits hW (b := s.sp) (fits_of_le_four hW (by simp) (by simp)) h0 (by omega)
  | popFault _ hlt => exact hpop hlt
  | pop d v _ hlt => exact hpop hlt
  | fault | cell | jump | sequential | emit | mode | halt => exact hsp

/-- `write_cells` writes neither `PC` nor `SP`. -/
theorem writeCells_pc_sp {a : Int} {vs : List Int} (h : writeCells a vs s = .next t) : t.pc = s.pc ∧ t.sp = s.sp := by
  unfold writeCells at h
  split_ifs at h <;> cases h <;> exact ⟨rfl, rfl⟩

/-- `write_cell` writes neither `PC` nor `SP`. -/
theorem writeCell_pc_sp {a v : Int} (h : writeCell a v s = .next t) : t.pc = s.pc ∧ t.sp = s.sp := by
  unfold writeCell at h
  split_ifs at h <;> cases h <;> exact ⟨rfl, rfl⟩

/-- `write_bytes` writes neither `PC` nor `SP`. -/
theorem writeBytes_pc_sp {a : Int} {bs : List Byte} (h : writeBytes a bs s = .next t) : t.pc = s.pc ∧ t.sp = s.sp := by
  unfold writeBytes at h
  split_ifs at h
  exact writeCells_pc_sp h

/-- A host command writes `PC` and `SP` with its own argument or not at all (R232, R233). -/
theorem accepted_pc_sp_fits {R : Nat} (hc : c.ArgFits R) (hpc : Fits R s.pc) (hsp : Fits R s.sp)
    (h : accepted c s = .next t) : Fits R t.pc ∧ Fits R t.sp := by
  have hkept : t.pc = s.pc ∧ t.sp = s.sp → Fits R t.pc ∧ Fits R t.sp := fun ⟨h1, h2⟩ => by
    rw [h1, h2]; exact ⟨hpc, hsp⟩
  cases c with
  | writeCell a v => exact hkept (writeCell_pc_sp h)
  | writeCells a vs => exact hkept (writeCells_pc_sp h)
  | writeBytes a bs => exact hkept (writeBytes_pc_sp h)
  | setPc a => cases h; exact ⟨hc, hsp⟩
  | setSp a => cases h; exact ⟨hpc, hc⟩
  | start => cases h; exact ⟨hpc, hsp⟩

/-- A host command the machine takes is accepted, or has no effect (R236). -/
theorem command_eq_accepted (h : command c s = .next t) : accepted c s = .next t ∨ t = s := by
  unfold command at h
  split at h
  · exact .inl h
  · cases h
  · exact .inl h
  · cases h; exact .inr rfl

/-- No host command writes the parameters or the commands after it. -/
theorem HostEffect.cfg_commands (h : HostEffect s t) : t.cfg = s.cfg ∧ t.commands = s.commands := by
  cases h <;> exact ⟨rfl, rfl⟩

/-- A host command the machine takes keeps both registers in a range its argument is in. -/
theorem command_pc_sp_fits {R : Nat} (hc : c.ArgFits R) (hpc : Fits R s.pc) (hsp : Fits R s.sp)
    (h : command c s = .next t) :
    t.cfg = s.cfg ∧ t.commands = s.commands ∧ Fits R t.pc ∧ Fits R t.sp := by
  rcases command_eq_accepted h with ha | rfl
  · obtain ⟨hcfg, hcs⟩ := (accepted_cases ha).cfg_commands
    exact ⟨hcfg, hcs, accepted_pc_sp_fits hc hpc hsp ha⟩
  · exact ⟨rfl, rfl, hpc, hsp⟩

/-- Settles O27: during a run by where the instruction was fetched and what it adds to `PC` and `SP`; outside one by the
argument of the host command taken. -/
theorem finiteRegistersSuffice : Obligations.FiniteRegistersSuffice := by
  intro s t h hpc hsp hcs hst
  have hW : 8 ≤ s.cfg.W := h.cfg_wf.1
  by_cases hs : s.status = .running
  · rcases running_step_cases hs hst with ⟨k, -, rfl⟩ | ⟨i, hf, he⟩
    · exact ⟨hpc, hsp, hcs⟩
    · rw [he.cfg_eq, he.commands_eq]
      exact ⟨he.pc_fits hW hf (fetchInstr_wellFormed h.mem_inRange hf), he.sp_fits hW hsp, hcs⟩
  · rcases not_running_step_cases hs hst with rfl | ⟨c, cs, hq, hc⟩
    · exact ⟨hpc, hsp, hcs⟩
    · rw [hq, List.forall_mem_cons] at hcs
      obtain ⟨harg, hrest⟩ := hcs
      obtain ⟨hcfg, hcmd, htpc, htsp⟩ := command_pc_sp_fits (s := { s with commands := cs }) harg hpc hsp hc
      rw [hcfg, hcmd]
      exact ⟨htpc, htsp, hrest⟩

end Sys2Proof.Machine
end

section
/-! Frames: which cell an instruction stores to, and that it changes no other. -/

namespace Sys2Proof.Machine

/-- Memory in `t` is that of `s`, or that of `s` with one cell written, at an index that meets `T`. -/
def StoresAtMost (T : Nat → Prop) (s t : State) : Prop := t.mem = s.mem ∨ ∃ d v, T d ∧ t.mem = s.mem.write d v

/-- The indices a pointer operand resolves to: that of the value of the cell the operand names (R55). -/
def State.PtrResolves (s : State) (w : Int) (d : Nat) : Prop :=
  ∃ r, s.resolve w = some r ∧ s.resolve (s.cell r) = some d

variable {s t : State} {i : Instr} {T : Nat → Prop} {rest : Nat → Outcome}

theorem State.PtrResolves.iff_of_resolve {w : Int} {r : Nat} (h : s.resolve w = some r) (d : Nat) :
    s.PtrResolves w d ↔ s.resolve (s.cell r) = some d := by simp [PtrResolves, h]

theorem State.PtrResolves.isSome {w : Int} {d : Nat} (h : s.PtrResolves w d) : (s.resolve w).isSome := by
  obtain ⟨r, hr, -⟩ := h
  exact Option.isSome_of_mem hr

theorem State.sameCells_of_mem_eq (h : t.mem = s.mem) : s.SameCells t := fun p => by simp only [State.cell, h]

theorem StoresAtMost.mono {U : Nat → Prop} (h : StoresAtMost T s t) (hTU : ∀ d, T d → U d) : StoresAtMost U s t :=
  h.imp id fun ⟨d, v, hd, hw⟩ => ⟨d, v, hTU d hd, hw⟩

/-- Every cell but the one index that may be stored to reads as before. -/
theorem StoresAtMost.cell_eq (h : StoresAtMost T s t) (hm : s.mem.wf) {d : Nat} (hd : ∀ e, T e → e = d) :
    ∀ p, p ≠ d → t.cell p = s.cell p := by
  intro p hp
  rcases h with h | ⟨e, v, he, h⟩
  · exact State.sameCells_of_mem_eq h p
  · rw [State.cell, h, Memory.read_write hm, if_neg (hd e he ▸ hp), State.cell]

/-- When no index may be stored to, every cell reads as before. -/
theorem StoresAtMost.sameCells (h : StoresAtMost T s t) (hT : ∀ e, ¬ T e) : s.SameCells t := by
  rcases h with h | ⟨e, v, he, -⟩
  · exact State.sameCells_of_mem_eq h
  · exact absurd he (hT e)

/-- A rule with an address operand stores where its rest does. -/
theorem withAddr_storesAtMost {w : Int} (h : withAddr s w rest = .next t)
    (hr : ∀ p, s.resolve w = some p → rest p = .next t → StoresAtMost T s t) : StoresAtMost T s t := by
  rcases withAddr_cases h with ⟨-, rfl⟩ | ⟨p, hp, h⟩
  · exact .inl rfl
  · exact hr p hp h

/-- A rule with a pointer operand stores where its rest does. -/
theorem withPtr_storesAtMost {w : Int} (h : withPtr s w rest = .next t)
    (hr : ∀ p, s.PtrResolves w p → rest p = .next t → StoresAtMost T s t) : StoresAtMost T s t := by
  rcases withPtr_cases h with rfl | ⟨r, p, h1, h2, h⟩
  · exact .inl rfl
  · exact hr p ⟨r, h1, h2⟩ h

/-! ## The instructions that store nothing -/

/-- Memory stays as it is unless the instruction is one that stores. -/
theorem Effect.mem_eq (he : Effect i s t) (hc : i.mnemonic ∉ cellWriters)
    (hs : i.mnemonic ∉ [Mnemonic.push, .pushp, .pop, .popp]) : t.mem = s.mem := by
  cases he with
  | cell d v hi => exact absurd hi hc
  | push d v hi | pop d v hi => rcases hi with hi | hi <;> simp [hi] at hs
  | fault | popFault | jump | sequential | emit | mode | halt => rfl

/-- `SP` stays as it is unless the instruction is a stack instruction (R27). -/
theorem Effect.sp_eq (he : Effect i s t) (hs : i.mnemonic ∉ [Mnemonic.push, .pushp, .pop, .popp]) : t.sp = s.sp := by
  rcases he.sp_cases with h | ⟨a, rfl | rfl, -⟩ | ⟨a, rfl | rfl, -⟩
  · exact h
  all_goals simp [Instr.mnemonic] at hs

/-- `MODE` stays as it is but for the instruction MODE (R27). -/
theorem Effect.mode_eq (he : Effect i s t) (hi : i.mnemonic ≠ .mode) : t.mode = s.mode := by
  rcases he.mode_cases with h | ⟨k, rfl, -⟩
  · exact h
  · exact absurd rfl hi

/-- The output log stays as it is but for the prints (R170). -/
theorem Effect.out_eq (he : Effect i s t) (hi : i.mnemonic ∉ [Mnemonic.print, .printc, .prints]) : t.out = s.out := by
  rcases he.out_cases with h | ⟨-, r, -, h | h | h⟩
  · exact h
  all_goals simp [h, Instr.mnemonic] at hi

/-- The status stays as it is but for HALT and a fault, which leaves memory and `PC`. -/
theorem Effect.status_eq_or_fault (he : Effect i s t) (hi : i.mnemonic ≠ .halt) :
    t.status = s.status ∨ ∃ k, t.mem = s.mem ∧ t.pc = s.pc ∧ t.status = .faulted k s.pc t.sp := by
  rcases he.status_cases with h | ⟨rfl, -⟩ | ⟨k, -, h⟩
  · exact .inl h
  · exact absurd rfl hi
  · exact .inr ⟨k, h⟩

/-- Settles O49: none of these is an instruction that stores, so memory and `SP` are as before; the other fields by
their writers. -/
theorem frameOfInstructionsThatStoreNothing : Obligations.FrameOfInstructionsThatStoreNothing := by
  intro i s t hi h
  have he := exec_cases h
  have hc : i.mnemonic ∉ cellWriters := by
    revert hi; cases i.mnemonic <;> decide
  have hs : i.mnemonic ∉ [Mnemonic.push, .pushp, .pop, .popp] := by
    revert hi; cases i.mnemonic <;> decide
  refine ⟨State.sameCells_of_mem_eq (he.mem_eq hc hs), he.cfg_eq, he.sp_eq hs, he.spLimit_eq, he.commands_eq,
    he.mode_eq, he.out_eq, fun hh => ?_⟩
  rw [← he.sp_eq hs]
  exact (he.status_eq_or_fault hh).imp id fun ⟨k, _, _, hk⟩ => ⟨k, hk⟩

/-! ## The instructions that store to an address -/

/-- An instruction that writes a cell, the stack instructions apart, changes memory and `PC` alone, or the status
alone. -/
theorem Effect.sameRest_or_fault (he : Effect i s t) (hi : i.mnemonic ∈ cellWriters) :
    s.SameRest t ∨ ∃ k, t = s.faultWith k := by
  cases he with
  | fault k => exact .inr ⟨k, rfl⟩
  | cell | jump | sequential => exact .inl ⟨rfl, rfl, rfl, rfl, rfl, rfl, rfl⟩
  | popFault hm | push _ _ hm | pop _ _ hm => rcases hm with hm | hm <;> simp [hm, cellWriters] at hi
  | emit _ hm => rcases hm with hm | hm | hm <;> simp [hm, cellWriters] at hi
  | mode k hm | halt hm => simp [hm, cellWriters, Instr.mnemonic] at hi

/-- ADD, SUB and MUL store to the index of their destination. -/
theorem wrappingOp_storesAtMost {op : Int → Int → Int} {dest src : Int} (h : wrappingOp op dest src s = .next t) :
    StoresAtMost (s.resolve dest = some ·) s t :=
  withAddr_storesAtMost h fun d hd h => withAddr_storesAtMost h fun _ _ h => by
    cases h; exact .inr ⟨d, _, hd, rfl⟩

/-- DIV stores to the index of its destination. -/
theorem execDiv_storesAtMost {dest src : Int} (h : execDiv dest src s = .next t) :
    StoresAtMost (s.resolve dest = some ·) s t :=
  withAddr_storesAtMost h fun d hd h => withAddr_storesAtMost h fun _ _ h => by
    split_ifs at h <;> cases h
    · exact .inl rfl
    · exact .inl rfl
    · exact .inr ⟨d, _, hd, rfl⟩

/-- Each of these instructions stores to the index its first operand resolves to. -/
theorem exec_storesAtMost_destination {dest : Int}
    (hi : i.mnemonic ∈ [Mnemonic.add, .sub, .mul, .div, .move, .load, .incr, .decr])
    (hd : i.operands.head? = some dest) (h : exec i s = .next t) : StoresAtMost (s.resolve dest = some ·) s t := by
  cases i with
  | add | sub | mul => cases hd; exact wrappingOp_storesAtMost h
  | div => cases hd; exact execDiv_storesAtMost h
  | move =>
    cases hd
    exact withAddr_storesAtMost h fun d hd h => withAddr_storesAtMost h fun _ _ h => by
      cases h; exact .inr ⟨d, _, hd, rfl⟩
  | load | incr | decr =>
    cases hd
    exact withAddr_storesAtMost h fun d hd h => by cases h; exact .inr ⟨d, _, hd, rfl⟩
  | _ => simp [Instr.mnemonic] at hi

/-- Settles O50: the cells by the destination, the other fields by the effect. -/
theorem frameOfInstructionsThatStoreToAnAddress : Obligations.FrameOfInstructionsThatStoreToAnAddress := by
  intro i s t dest hm hi hd h
  have hst := exec_storesAtMost_destination hi hd h
  have hc : i.mnemonic ∈ cellWriters := by
    revert hi; cases i.mnemonic <;> decide
  refine ⟨fun d hres => hst.cell_eq hm (by simp [hres, eq_comm]), fun hres => hst.sameCells (by simp [hres]), ?_⟩
  rcases (exec_cases h).sameRest_or_fault hc with hr | ⟨k, rfl⟩
  · exact .inl hr
  · exact .inr ⟨fun _ => rfl, rfl, k, ⟨rfl, rfl, rfl, rfl, rfl, rfl, rfl⟩, rfl⟩

/-! ## The instructions that store through a pointer -/

/-- Everything STORE can do: fault on an address, or copy the source cell to where the pointer leads (R132). -/
theorem execStore_cases {ptr src : Int} (h : execStore ptr src s = .next t) :
    t = s.faultWith .invalidAddress ∨ ∃ d e, s.PtrResolves ptr d ∧ s.resolve src = some e ∧
      t = (s.setCell d (s.cell e)).advance 3 := by
  rcases withPtr_cases h with rfl | ⟨r, d, hr, hd, h⟩
  · exact .inl rfl
  · rcases withAddr_cases h with ⟨-, rfl⟩ | ⟨e, he, h⟩
    · exact .inl rfl
    · cases h; exact .inr ⟨d, e, ⟨r, hr, hd⟩, he, rfl⟩

/-- Everything STOREP can do: fault on an address, or copy the cell the source pointer leads to (R133). -/
theorem execStorep_cases {destPtr srcPtr : Int} (h : execStorep destPtr srcPtr s = .next t) :
    t = s.faultWith .invalidAddress ∨ ∃ d e, s.PtrResolves destPtr d ∧ s.PtrResolves srcPtr e ∧
      t = (s.setCell d (s.cell e)).advance 3 := by
  rcases withPtr_cases h with rfl | ⟨r, d, hr, hd, h⟩
  · exact .inl rfl
  · rcases withPtr_cases h with rfl | ⟨q, e, hq, he, h⟩
    · exact .inl rfl
    · cases h; exact .inr ⟨d, e, ⟨r, hr, hd⟩, ⟨q, hq, he⟩, rfl⟩

/-- What STORE and STOREP have in common. -/
theorem storeThroughPointer_cases {ptr src : Int}
    (h : exec (.store ptr src) s = .next t ∨ exec (.storep ptr src) s = .next t) :
    t = s.faultWith .invalidAddress ∨ ∃ d v, s.PtrResolves ptr d ∧ (s.resolve src).isSome ∧
      t = (s.setCell d v).advance 3 := by
  rcases h with h | h
  · refine (execStore_cases h).imp id ?_
    rintro ⟨d, e, hd, he, rfl⟩
    exact ⟨d, _, hd, by simp [he], rfl⟩
  · refine (execStorep_cases h).imp id ?_
    rintro ⟨d, e, hd, ⟨q, hq, -⟩, rfl⟩
    exact ⟨d, _, hd, by simp [hq], rfl⟩

/-- Settles O51: a fault changes the status alone; a store that completes has resolved its pointer, the pointer's value
and its source, and writes the one cell. -/
theorem frameOfInstructionsThatStoreThroughAPointer : Obligations.FrameOfInstructionsThatStoreThroughAPointer := by
  intro s t ptr src hm h
  have hsrc : exec (.storep ptr src) s = .next t →
      ∀ r : Nat, s.resolve src = some r → s.resolve (s.cell r) = none → s.SameCells t := by
    intro h r hr hnone
    rcases execStorep_cases h with rfl | ⟨d, e, -, he, -⟩
    · exact fun _ => rfl
    · rw [State.PtrResolves.iff_of_resolve hr, hnone] at he; cases he
  rcases storeThroughPointer_cases h with rfl | ⟨d, v, ⟨r, hr, hd⟩, he, rfl⟩
  · exact ⟨fun _ _ _ _ _ _ => rfl, fun _ _ => rfl, fun _ _ => rfl, hsrc,
      .inr ⟨fun _ => rfl, rfl, ⟨rfl, rfl, rfl, rfl, rfl, rfl, rfl⟩, rfl⟩⟩
  · refine ⟨fun r' d' hr' hd' p hp => ?_, fun hnone => ?_, fun hnone => ?_, hsrc,
      .inl ⟨rfl, rfl, rfl, rfl, rfl, rfl, rfl⟩⟩
    · obtain rfl : r = r' := by simpa [hr] using hr'
      obtain rfl : d = d' := by simpa [hd] using hd'
      simp [setCell_cell hm, hp]
    · simp [hr, hd] at hnone
    · simp [hnone] at he

/-! ## The stack instructions -/

/-- A push stores to the index `SP` resolves to, once its operand has resolved (R183, R184). -/
theorem push_storesAtMost {w : Int} (h : exec (.push w) s = .next t) :
    StoresAtMost (fun d => s.resolve s.sp = some d ∧ (s.resolve w).isSome) s t := by
  simp only [exec, execPush] at h
  split_ifs at h
  · cases h; exact .inl rfl
  · exact withAddr_storesAtMost h fun p hp h => withAddr_storesAtMost h fun d hd h => by
      cases h; exact .inr ⟨d, _, ⟨hd, Option.isSome_of_mem hp⟩, rfl⟩

/-- PUSHP also needs the pointer's value to resolve (R184). -/
theorem pushp_storesAtMost {w : Int} (h : exec (.pushp w) s = .next t) :
    StoresAtMost (fun d => s.resolve s.sp = some d ∧ ∃ e, s.PtrResolves w e) s t := by
  simp only [exec, execPushp] at h
  split_ifs at h
  · cases h; exact .inl rfl
  · exact withPtr_storesAtMost h fun p hp h => withAddr_storesAtMost h fun d hd h => by
      cases h; exact .inr ⟨d, _, ⟨hd, p, hp⟩, rfl⟩

/-- POP stores to the index its operand resolves to, once `SP + 1` has resolved (R185). -/
theorem pop_storesAtMost {w : Int} (h : exec (.pop w) s = .next t) :
    StoresAtMost (fun d => s.resolve w = some d ∧ (s.resolve (s.sp + 1)).isSome) s t := by
  simp only [exec, execPop] at h
  split_ifs at h
  · cases h; exact .inl rfl
  · exact withAddr_storesAtMost (s := s.setSp (s.sp + 1)) h fun p hp h =>
      withAddr_storesAtMost (s := s.setSp (s.sp + 1)) h fun d hd h => by
        cases h; exact .inr ⟨d, _, ⟨hd, Option.isSome_of_mem hp⟩, rfl⟩

/-- POPP stores to the index its pointer's value resolves to, once `SP + 1` has resolved (R186). -/
theorem popp_storesAtMost {w : Int} (h : exec (.popp w) s = .next t) :
    StoresAtMost (fun d => s.PtrResolves w d ∧ (s.resolve (s.sp + 1)).isSome) s t := by
  simp only [exec, execPopp] at h
  split_ifs at h
  · cases h; exact .inl rfl
  · exact withAddr_storesAtMost (s := s.setSp (s.sp + 1)) h fun p hp h =>
      withPtr_storesAtMost (s := s.setSp (s.sp + 1)) h fun d hd h => by
        cases h; exact .inr ⟨d, _, ⟨hd, Option.isSome_of_mem hp⟩, rfl⟩

/-- What the two pushes have in common. -/
theorem pushes_storesAtMost {w : Int} (hi : i = .push w ∨ i = .pushp w) (h : exec i s = .next t) :
    StoresAtMost (fun d => s.resolve s.sp = some d ∧ (s.resolve w).isSome) s t := by
  rcases hi with rfl | rfl
  · exact push_storesAtMost h
  · exact (pushp_storesAtMost h).mono fun d ⟨hd, _, hp⟩ => ⟨hd, hp.isSome⟩

/-- What the two pops have in common. -/
theorem pops_storesAtMost {w : Int} (hi : i = .pop w ∨ i = .popp w) (h : exec i s = .next t) :
    StoresAtMost (fun _ => (s.resolve w).isSome ∧ (s.resolve (s.sp + 1)).isSome) s t := by
  rcases hi with rfl | rfl
  · exact (pop_storesAtMost h).mono fun d ⟨hd, ht⟩ => ⟨Option.isSome_of_mem hd, ht⟩
  · exact (popp_storesAtMost h).mono fun d ⟨hd, ht⟩ => ⟨hd.isSome, ht⟩

/-- What PUSHP and POPP have in common: they store nowhere unless the pointer's value resolves. -/
theorem pointerStack_storesAtMost {w : Int} (hi : i = .pushp w ∨ i = .popp w) (h : exec i s = .next t) :
    StoresAtMost (fun _ => ∃ e, s.PtrResolves w e) s t := by
  rcases hi with rfl | rfl
  · exact (pushp_storesAtMost h).mono fun d ⟨_, hp⟩ => hp
  · exact (popp_storesAtMost h).mono fun d ⟨hd, _⟩ => ⟨d, hd⟩

/-- Settles O52: the cells by where each instruction stores, the other fields by the effect. -/
theorem frameOfStackInstructions : Obligations.FrameOfStackInstructions := by
  intro i s t w hm hi h
  have he := exec_cases h
  have hmn : i.mnemonic ≠ .mode ∧ i.mnemonic ≠ .halt ∧ i.mnemonic ∉ [Mnemonic.print, .printc, .prints] := by
    simp only [List.mem_cons, List.not_mem_nil, or_false] at hi
    rcases hi with rfl | rfl | rfl | rfl <;> simp [Instr.mnemonic]
  obtain ⟨hmode, hhalt, hprint⟩ := hmn
  refine ⟨fun hi d hd => ?_, fun hi hnone => ?_, ?_, ?_, fun hi hnone => ?_, fun hi r hr hnone => ?_,
    he.cfg_eq, he.spLimit_eq, he.mode_eq hmode, he.out_eq hprint, he.commands_eq, ?_⟩
  · exact (pushes_storesAtMost hi h).cell_eq hm fun e ⟨he, _⟩ => by simpa [hd, eq_comm] using he
  · exact (pushes_storesAtMost hi h).sameCells fun e ⟨he, hw⟩ => by
      rcases hnone with hnone | hnone <;> simp [hnone] at he hw
  · rintro rfl d hd
    exact (pop_storesAtMost h).cell_eq hm fun e ⟨he, _⟩ => by simpa [hd, eq_comm] using he
  · rintro rfl r d hr hd
    exact (popp_storesAtMost h).cell_eq hm fun e ⟨he, _⟩ => by
      simpa [State.PtrResolves.iff_of_resolve hr, hd, eq_comm] using he
  · exact (pops_storesAtMost hi h).sameCells fun e ⟨hw, ht⟩ => by
      rcases hnone with hnone | hnone <;> simp [hnone] at hw ht
  · exact (pointerStack_storesAtMost hi h).sameCells fun _ ⟨e, he⟩ => by
      simp [State.PtrResolves.iff_of_resolve hr, hnone] at he
  · exact (he.status_eq_or_fault hhalt).imp id fun ⟨k, hmem, hpc, hk⟩ =>
      ⟨State.sameCells_of_mem_eq hmem, hpc, k, hk⟩

end Sys2Proof.Machine
end

section
/-! The Addressing Resolver: `Resolve` by the class of `MODE`, and between two addresses that resolve (R53 to R56). -/

namespace Sys2Proof.Machine

variable {s : State} {a : Int} {p : Nat}

/-- `Resolve` fails exactly when one of the two bounds does (R53). -/
theorem resolve_eq_none :
    s.resolve a = none ↔ ¬ (0 ≤ a ∧ a < s.cfg.CAP) ∨ ¬ (0 ≤ a * s.mode ∧ a * s.mode < s.cfg.CAP) := by
  rw [← Option.not_isSome_iff_eq_none, resolve_isSome, not_and_or]

/-- With `MODE = 1` an address is its own physical index (R56). -/
theorem resolve_eq_some_of_mode_one (h : s.mode = 1) :
    s.resolve a = some p ↔ 0 ≤ a ∧ a < s.cfg.CAP ∧ (p : Int) = a := by
  rw [resolve_eq_some, h]
  omega

/-- With a positive `MODE` the physical index is at least the address, so its own bound is the one that counts
(R56). -/
theorem resolve_eq_some_of_mode_pos (h : 0 < s.mode) :
    s.resolve a = some p ↔ 0 ≤ a ∧ s.mode * a < s.cfg.CAP ∧ (p : Int) = s.mode * a := by
  rw [resolve_eq_some, mul_comm a]
  have hle : 0 ≤ a → a ≤ s.mode * a := fun ha => le_mul_of_one_le_left ha h
  omega

/-- With `MODE = 0` every address of the array resolves to cell 0 (R56). -/
theorem resolve_eq_some_of_mode_zero (h : s.mode = 0) :
    s.resolve a = some p ↔ 0 ≤ a ∧ a < s.cfg.CAP ∧ p = 0 := by
  rw [resolve_eq_some, h]
  omega

/-- With a negative `MODE` only address 0 resolves, every other one being scaled out of the array (R56). -/
theorem resolve_eq_some_of_mode_neg (hcap : 1 ≤ s.cfg.CAP) (h : s.mode < 0) :
    s.resolve a = some p ↔ a = 0 ∧ p = 0 := by
  rw [resolve_eq_some]
  constructor
  · rintro ⟨⟨h0, -⟩, hp, -⟩
    have ha : a = 0 := by
      by_contra hne
      have := mul_neg_of_pos_of_neg (a := a) (by omega) h
      omega
    subst ha
    omega
  · rintro ⟨rfl, rfl⟩
    omega

/-- Settles O9, by when `Resolve` succeeds and what a resolving rule does then and otherwise. -/
theorem resolveScalesAndChecksBothBounds : Obligations.ResolveScalesAndChecksBothBounds := by
  refine fun s a => ⟨fun p => ?_, resolve_eq_none, fun p rest hp => resolving_some hp rest,
    fun rest hnone => resolving_none hnone rest⟩
  rw [resolve_eq_some]
  omega

/-- Settles O10: one lemma per class of `MODE`. -/
theorem resolveByClassOfMode : Obligations.ResolveByClassOfMode := fun _ _ _ hcap =>
  ⟨resolve_eq_some_of_mode_one, fun h => resolve_eq_some_of_mode_pos (by omega), resolve_eq_some_of_mode_zero,
    resolve_eq_some_of_mode_neg hcap⟩

/-- Settles O11: scaling by `MODE` is monotone or antitone, so `y * MODE` lies between `x * MODE` and `z * MODE`. -/
theorem resolveIsMonotoneBetween : Obligations.ResolveIsMonotoneBetween := by
  intro s x y z hxy hyz hx hz
  rw [resolve_isSome] at hx hz ⊢
  rcases le_total 0 s.mode with hk | hk
  · have h1 := mul_le_mul_of_nonneg_right hxy hk
    have h2 := mul_le_mul_of_nonneg_right hyz hk
    omega
  · have h1 := mul_le_mul_of_nonpos_right hxy hk
    have h2 := mul_le_mul_of_nonpos_right hyz hk
    omega

end Sys2Proof.Machine
end

section
/-! What an instruction may change of memory: at most one cell (R59), and for a push none below `SP_LIMIT` (R63). -/

namespace Sys2Proof.Machine

variable {s t : State} {i : Instr}

/-- Every instruction stores to one cell at most (R59). -/
theorem Effect.storesAtMost_one (h : Effect i s t) : ∃ d, StoresAtMost (· = d) s t := by
  cases h with
  | cell d v | push d v | pop d v => exact ⟨d, .inr ⟨d, v, rfl, rfl⟩⟩
  | fault | popFault | jump | sequential | emit | mode | halt => exact ⟨0, .inl rfl⟩

/-- Settles O23: a cell that changed is the one the instruction stored to. -/
theorem atMostOneCellWritten : Obligations.AtMostOneCellWritten := by
  intro i s t hm h p q hp hq
  obtain ⟨d, hd⟩ := (exec_cases h).storesAtMost_one
  have hkept : ∀ r, r ≠ d → t.cell r = s.cell r := hd.cell_eq hm fun _ => id
  calc p = d := not_imp_comm.1 (hkept p) hp
    _ = q := (not_imp_comm.1 (hkept q) hq).symm

/-- Writing the value a cell has leaves the state as it is. -/
theorem setCell_cell_self (hm : s.mem.wf) (p : Nat) : s.setCell p (s.cell p) = s := by
  simp [State.setCell, State.cell, Memory.write_read_self hm]

/-- What a push does to memory: nothing, or it copies a cell that some address resolves to into the cell `SP` resolves
to, and then the push check has passed (R181, R183, R184). -/
theorem pushes_copy {w : Int} (h : exec (.push w) s = .next t ∨ exec (.pushp w) s = .next t) :
    t.mem = s.mem ∨ ∃ a p d, s.resolve a = some p ∧ s.spLimit ≤ s.sp ∧ s.resolve s.sp = some d ∧
      t.mem = (s.setCell d (s.cell p)).mem := by
  rcases h with h | h
  · simp only [exec, execPush] at h
    split_ifs at h with hsp
    · cases h; exact .inl rfl
    · rcases withAddr_cases h with ⟨-, rfl⟩ | ⟨p, hp, h⟩
      · exact .inl rfl
      · rcases withAddr_cases h with ⟨-, rfl⟩ | ⟨d, hd, h⟩
        · exact .inl rfl
        · cases h; exact .inr ⟨w, p, d, hp, by omega, hd, rfl⟩
  · simp only [exec, execPushp] at h
    split_ifs at h with hsp
    · cases h; exact .inl rfl
    · rcases withPtr_cases h with rfl | ⟨r, p, -, hp, h⟩
      · exact .inl rfl
      · rcases withAddr_cases h with ⟨-, rfl⟩ | ⟨d, hd, h⟩
        · exact .inl rfl
        · cases h; exact .inr ⟨s.cell r, p, d, hp, by omega, hd, rfl⟩

/-- Outside `MODE = 0` an address is at most the index it resolves to: it is scaled up, or it is 0. -/
theorem le_of_resolve {a : Int} {p : Nat} (hmode : s.mode ≠ 0) (h : s.resolve a = some p) : a ≤ p := by
  obtain ⟨⟨h0, hlt⟩, hp, -⟩ := resolve_eq_some.1 h
  rcases lt_or_gt_of_ne hmode with hk | hk
  · have := ((resolve_eq_some_of_mode_neg (by omega) hk).1 h).1
    omega
  · rw [hp]
    exact le_mul_of_one_le_right h0 hk

/-- Settles O45: with `MODE = 0` a push copies cell 0 to cell 0; otherwise it stores at or above `SP`, so at or above
`SP_LIMIT`. -/
theorem pushChangesNoLoadedCell : Obligations.PushChangesNoLoadedCell := by
  intro s t w hm _ h q hq
  rcases pushes_copy h with hmem | ⟨a, p, d, hp, hsp, hd, hmem⟩
  · exact State.sameCells_of_mem_eq hmem q
  · rw [State.sameCells_of_mem_eq hmem q]
    by_cases hmode : s.mode = 0
    · obtain ⟨-, -, rfl⟩ := (resolve_eq_some_of_mode_zero hmode).1 hp
      obtain ⟨-, -, rfl⟩ := (resolve_eq_some_of_mode_zero hmode).1 hd
      rw [setCell_cell_self hm]
    · have hle : s.sp ≤ d := le_of_resolve hmode hd
      rw [setCell_cell hm, if_neg (by omega)]

/-- Settles O46: the operand, the pointer's value and `SP` all resolve to cell 0, which is written with its own
value. -/
theorem pushUnderModeZeroChangesNoCell : Obligations.PushUnderModeZeroChangesNoCell := by
  intro s w hm hmode hsp h0 hlt hw0 hwlt
  have hres : ∀ a : Int, 0 ≤ a → a < s.cfg.CAP → s.resolve a = some 0 := fun a ha hacap =>
    (resolve_eq_some_of_mode_zero hmode).2 ⟨ha, hacap, rfl⟩
  have hpush : pushValue (s.cell 0) s = .next { s with sp := s.sp - 1, pc := s.pc + 2 } := by
    rw [pushValue, withStackTop_some (hres _ h0 hlt), setCell_cell_self hm]
    rfl
  refine ⟨?_, fun hc0 hclt => ?_⟩
  · rw [exec, execPush, if_neg (by omega), withAddr_some (hres _ hw0 hwlt), hpush]
  · rw [exec, execPushp, if_neg (by omega), withPtr_some (hres _ hw0 hwlt) (hres _ hc0 hclt), hpush]

end Sys2Proof.Machine
end

section
/-! The loader writes, and `SP_LIMIT` under them (R60 to R64). -/

namespace Sys2Proof.Machine

variable {s t : State} {a : Int} {vs : List Int}

/-- In Idle and Halted a host command is accepted (R236). -/
theorem command_accepted (hs : s.status = .idle ∨ s.status = .halted) (c : Command) : command c s = accepted c s := by
  unfold command
  rcases hs with hs | hs <;> rw [hs]

/-- A loader write with a value that does not fit is refused (93 I13). -/
theorem writeCells_tooWide (h : ¬ ∀ v ∈ vs, Fits s.cfg.W v) :
    writeCells a vs s = .refused .loaderValueTooWide := if_neg h

/-- An empty loader write has no effect (R61). -/
theorem writeCells_nil : writeCells a [] s = .next s := by simp [writeCells]

/-- A loader write that leaves the array writes nothing and faults (R61, R202). -/
theorem writeCells_outOfRange (hv : ∀ v ∈ vs, Fits s.cfg.W v) (hne : vs ≠ [])
    (hr : a < 0 ∨ a + vs.length > s.cfg.CAP) :
    writeCells a vs s = .next (s.faultWith .outOfCapacity) := by
  rw [writeCells, if_pos hv, if_neg (by simpa using hne), if_pos hr, raise_eq]

/-- A loader write inside the array succeeds (R61). -/
theorem writeCells_inRange (hv : ∀ v ∈ vs, Fits s.cfg.W v) (hne : vs ≠ []) (h0 : 0 ≤ a)
    (hr : a + vs.length ≤ s.cfg.CAP) : writeCells a vs s = .next (s.loaded a vs) := by
  rw [writeCells, if_pos hv, if_neg (by simpa using hne), if_neg (by omega)]

/-- `write_cell` is `write_cells` of one value (R60, R61). -/
theorem writeCell_eq_writeCells (v : Int) : writeCell a v s = writeCells a [v] s := by
  unfold writeCell
  split_ifs with hv hr
  · exact (writeCells_inRange (by simpa using hv) (by simp) hr.1 (by simpa using hr.2)).symm
  · exact (writeCells_outOfRange (by simpa using hv) (by simp) (by simp; omega)).symm
  · exact (writeCells_tooWide (by simpa using hv)).symm

/-- Settles O54: one case of `write_cells` for each of the values, the emptiness and the range; what a successful write
leaves in the cells is read after write. -/
theorem loaderWritesCells : Obligations.LoaderWritesCells := by
  intro s a vs hm hs
  simp only [command_accepted hs, accepted]
  refine ⟨?_, fun v hmem hv => writeCells_tooWide fun h => hv (h v hmem), ?_, writeCells_outOfRange,
    fun hv hne h0 hr => ⟨_, writeCells_inRange hv hne h0 hr, ?_, fun q hq => ?_, rfl, rfl⟩⟩
  · rintro v rfl
    exact writeCell_eq_writeCells v
  · rintro rfl
    exact writeCells_nil
  · exact (Memory.read_writeAll hm a.toNat vs).1
  · exact (Memory.read_writeAll hm a.toNat vs).2 q (by omega)

/-- Settles O55: `write_bytes` checks the width and then is `write_cells` of the bytes' cells. -/
theorem writeBytesNeedsByteCells : Obligations.WriteBytesNeedsByteCells := by
  intro s a bs hs
  simp only [command_accepted hs, accepted]
  exact ⟨fun hW => ⟨if_pos hW, fun b _ => fits_byteCell b⟩, fun hW => if_neg hW⟩

/-- A host command does not lower `SP_LIMIT` (R63). -/
theorem HostEffect.spLimit_le (h : HostEffect s t) : s.spLimit ≤ t.spLimit := by
  cases h with
  | loaded a vs => exact le_max_left _ _
  | nothing | outOfCapacity | setPc | setSp | start => exact le_rfl

/-- Settles O26: no instruction writes `SP_LIMIT`, and no host command lowers it. -/
theorem spLimitNeverDecreases : Obligations.SpLimitNeverDecreases := by
  intro s t h
  by_cases hs : s.status = .running
  · rcases running_step_cases hs h with ⟨k, -, rfl⟩ | ⟨i, -, he⟩
    · exact le_rfl
    · exact he.spLimit_eq.ge
  · rcases not_running_step_cases hs h with rfl | ⟨c, cs, -, hc⟩
    · exact le_rfl
    · rcases command_cases hc with ⟨-, he⟩ | ⟨-, rfl⟩
      · exact he.spLimit_le
      · exact le_rfl

/-- A step of a faulted machine drops the next pending command and changes nothing else (R236). -/
theorem step_faulted {k : Fault} {p q : Int} (hs : s.status = .faulted k p q) :
    step s = .next { s with commands := s.commands.tail } := by
  obtain ⟨cfg, mem, pc, sp, spLimit, mode, status, out, commands⟩ := s
  subst hs
  cases commands <;> rfl

/-- A number of steps answers a state when the first step does and the others do from there. -/
theorem runSteps_succ_eq_next {n : Nat} :
    runSteps (n + 1) s = .next t ↔ ∃ u, step s = .next u ∧ runSteps n u = .next t := by
  rw [runSteps]
  cases step s <;> simp

/-- A fault is final, whatever commands the host has pending (R209). -/
theorem runSteps_faulted {k : Fault} {p q : Int} (n : Nat) (hs : s.status = .faulted k p q)
    (h : runSteps n s = .next t) : t.status = .faulted k p q := by
  induction n generalizing s with
  | zero => cases h; exact hs
  | succ n ih =>
    obtain ⟨u, hu, h⟩ := runSteps_succ_eq_next.1 h
    rw [step_faulted hs] at hu
    cases hu
    exact ih (s := { s with commands := s.commands.tail }) hs h

/-- A step in Idle takes the first pending loader write. -/
theorem step_idle_writeCells {cs : List Command} (hs : s.status = .idle) (hc : s.commands = .writeCells a vs :: cs) :
    step s = writeCells a vs { s with commands := cs } := by
  rw [step_not_running (by simp [hs]), takeCommand]
  simp only [hc]
  exact command_accepted (s := { s with commands := cs }) (.inl hs) _

/-- What a `write_cells` that answers a state has done: nothing when empty, else it loaded its values or faulted. -/
theorem writeCells_next (h : writeCells a vs s = .next t) :
    (vs = [] ∧ t = s) ∨ (vs ≠ [] ∧ t = s.loaded a vs) ∨ t = s.faultWith .outOfCapacity := by
  unfold writeCells at h
  split_ifs at h with hv hn hr
  · cases h; exact .inl ⟨List.length_eq_zero_iff.1 hn, rfl⟩
  · cases h; exact .inr (.inr rfl)
  · cases h; exact .inr (.inl ⟨by simpa using hn, rfl⟩)

/-- `SP_LIMIT` after pending loader writes that leave the status Idle: no lower, at least the end of every non-empty
write, and as before or the end of one of them. -/
theorem spLimit_of_pending_writes (ws : List (Int × List Int)) (hs : s.status = .idle)
    (hc : s.commands = ws.map fun w => .writeCells w.1 w.2) (h : runSteps ws.length s = .next t)
    (ht : t.status = .idle) :
    s.spLimit ≤ t.spLimit ∧ (∀ w ∈ ws, w.2 ≠ [] → w.1 + w.2.length ≤ t.spLimit) ∧
      (t.spLimit = s.spLimit ∨ ∃ w ∈ ws, w.2 ≠ [] ∧ t.spLimit = w.1 + w.2.length) := by
  induction ws generalizing s with
  | nil => cases h; simp
  | cons w ws ih =>
    obtain ⟨u, hu, h⟩ := runSteps_succ_eq_next.1 h
    rw [step_idle_writeCells hs hc] at hu
    rcases writeCells_next hu with ⟨hnil, rfl⟩ | ⟨hne, rfl⟩ | rfl
    · simpa [hnil] using ih (s := { s with commands := ws.map _ }) hs rfl h
    · obtain ⟨hle, hall, hex⟩ := ih (s := { s with commands := ws.map _ }.loaded w.1 w.2) hs rfl h
      simp only [loaded_spLimit] at hle hex
      refine ⟨(le_max_left _ _).trans hle,
        List.forall_mem_cons.2 ⟨fun _ => (le_max_right _ _).trans hle, hall⟩, ?_⟩
      rw [List.exists_mem_cons_iff]
      rcases hex with hex | hex
      · rcases max_choice s.spLimit (w.1 + w.2.length) with hmax | hmax
        · exact .inl (hex.trans hmax)
        · exact .inr (.inl ⟨hne, hex.trans hmax⟩)
      · exact .inr (.inr hex)
    · rw [runSteps_faulted _ rfl h] at ht
      cases ht

/-- Settles O56: the pending writes on a newly constructed machine, whose `SP_LIMIT` is 0. -/
theorem spLimitCoversEverythingLoaded : Obligations.SpLimitCoversEverythingLoaded := fun c ws _ h ht =>
  (spLimit_of_pending_writes (s := { State.initial c with commands := ws.map fun w => .writeCells w.1 w.2 })
    ws rfl rfl h ht).2

end Sys2Proof.Machine
end

section
/-! The decoder and the encoder are inverse to each other (R80 to R90): what `decode` answers in each case, the parts of
an assembled instruction, and the two directions; then the default opcode table (R82, R86). -/

namespace Sys2Proof

variable {c : Config} {w0 : Int} {ws rest : List Int} {m : Mnemonic} {i : Instr}

/-! ## What the decoder answers -/

/-- An opcode word with enough words after it decodes (R83, R85). -/
theorem decode_opcode (hm : c.mnemonicOf w0 = some m) (hl : m.width - 1 ≤ ws.length) :
    decode c (w0 :: ws) = .ok (m.instr ws, ws.drop (m.width - 1)) := by
  simp [decode, hm, hl.not_gt]

/-- Everything a word sequence that decodes can be (R80, R83, R85). -/
theorem decode_cases (h : decode c ws = .ok (i, rest)) :
    ∃ w0 us m, ws = w0 :: us ∧ c.mnemonicOf w0 = some m ∧ m.width - 1 ≤ us.length ∧ i = m.instr us ∧
      rest = us.drop (m.width - 1) := by
  unfold decode at h
  split at h
  · cases h
  · split at h
    · cases h
    · split_ifs at h with hl
      cases h
      exact ⟨_, _, _, rfl, ‹_›, not_lt.1 hl, rfl, rfl⟩

/-- A word sequence is rejected for its opcode word exactly when no mnemonic has that opcode value (R83, R86). -/
theorem decode_eq_illegalOpcode :
    decode c (w0 :: ws) = .error (.illegalOpcode w0) ↔ c.mnemonicOf w0 = none := by
  cases hm : c.mnemonicOf w0 with
  | none => simp [decode, hm]
  | some m =>
    simp only [decode, hm, reduceCtorEq, iff_false]
    split_ifs <;> simp

/-! ## The parts of an assembled instruction -/

theorem Mnemonic.width_pos (m : Mnemonic) : 1 ≤ m.width := by cases m <;> decide

@[simp] theorem Mnemonic.mnemonic_instr (m : Mnemonic) (ws : List Int) : (m.instr ws).mnemonic = m := by
  cases m <;> rfl

/-- The operands of an assembled instruction are read from the words one by one, as many as the width leaves room
for (R81, R84). -/
theorem Mnemonic.operands_instr_eq_map (m : Mnemonic) (ws : List Int) :
    (m.instr ws).operands = (List.range (m.width - 1)).map fun k => ws.getD k 0 := by
  cases m <;> rfl

/-- Given enough words, the operands of an assembled instruction are the first of them (R84, R85). -/
theorem Mnemonic.operands_instr (h : m.width - 1 ≤ ws.length) :
    (m.instr ws).operands = ws.take (m.width - 1) := by
  rw [Mnemonic.operands_instr_eq_map]
  refine List.ext_getElem (by simpa using h) fun k hk _ => ?_
  have hk : k < m.width - 1 := by simpa using hk
  simp [List.getD_eq_getElem?_getD, hk.trans_le h]

/-- An instruction is assembled from its operands, whatever words follow them. -/
theorem Instr.instr_operands_append (i : Instr) (rest : List Int) : i.mnemonic.instr (i.operands ++ rest) = i :=
  (Laws.Assembles.all i).1 rest

/-- The operands fill the width but for the opcode word (R81). -/
theorem Instr.length_operands (i : Instr) : i.operands.length = i.mnemonic.width - 1 := (Laws.Assembles.all i).2.1

/-- An instruction is well formed exactly when its operands fit (R90). -/
theorem Instr.wellFormed_iff {W : Nat} : i.wellFormed W = true ↔ ∀ w ∈ i.operands, Fits W w :=
  (Laws.Assembles.all i).2.2 W

/-! ## The two directions -/

/-- Decoding undoes encoding, whatever the operands are. -/
theorem decode_encode_append (hc : c.wf) (i : Instr) (rest : List Int) :
    decode c (encode c i ++ rest) = .ok (i, rest) := by
  have hlen := i.length_operands
  calc decode c (encode c i ++ rest)
    _ = .ok (i.mnemonic.instr (i.operands ++ rest), (i.operands ++ rest).drop (i.mnemonic.width - 1)) :=
        decode_opcode (Config.mnemonicOf_opcodeOf hc _) (by simp [hlen])
    _ = .ok (i, rest) := by rw [i.instr_operands_append, List.drop_left' hlen]

/-- Settles O1: the opcode lookup finds the mnemonic of its own opcode value, and the mnemonic is assembled with the
operands it was taken from. -/
theorem decodeOfEncodeIsIdentity : Obligations.DecodeOfEncodeIsIdentity :=
  fun _ hc i _ rest => decode_encode_append hc i rest

/-- Settles O2: the opcode word is the opcode value of the mnemonic found, and the words after it are the operands
followed by those left over. -/
theorem encodeOfDecodeIsIdentity : Obligations.EncodeOfDecodeIsIdentity := by
  intro c ws rest i h
  obtain ⟨w0, us, m, rfl, hm, hl, rfl, rfl⟩ := decode_cases h
  rw [encode, Mnemonic.mnemonic_instr, Config.opcodeOf_of_mnemonicOf hm, Mnemonic.operands_instr hl, List.cons_append,
    List.take_append_drop]

theorem length_encode (c : Config) (i : Instr) : (encode c i).length = i.mnemonic.width := by
  rw [encode, List.length_cons, i.length_operands, Nat.sub_add_cancel i.mnemonic.width_pos]

/-- Settles O3: the opcode values fit under legal parameters, and the operands of a well-formed instruction do. -/
theorem encodedWordsFitAndCount : Obligations.EncodedWordsFitAndCount := fun c hc i hi =>
  ⟨length_encode c i, List.forall_mem_cons.2 ⟨Config.fits_opcodeOf hc i.mnemonic, Instr.wellFormed_iff.1 hi⟩⟩

/-! ## The default opcode table -/

/-- A word spells no mnemonic exactly when it is no opcode value (R83, R86). -/
theorem Config.mnemonicOf_eq_none : c.mnemonicOf w0 = none ↔ ∀ m, c.opcodeOf m ≠ w0 := by
  simp [Config.mnemonicOf, Mnemonic.mem_all]

/-- The default table numbers the mnemonics from 1 in listing order (R82). -/
theorem Config.opcodeOf_default (h : c.OPC = Config.defaultOpcodes) (m : Mnemonic) : c.opcodeOf m = m.index + 1 := by
  rw [Config.opcodeOf, h]
  cases m <;> rfl

/-- Every place of the listing order is taken (R82). -/
theorem Mnemonic.exists_index_eq : ∀ n < 29, ∃ m ∈ Mnemonic.all, m.index = n := by decide

/-- Under the default table the words that spell no mnemonic are those outside 1 to 29 (R82, R86). -/
theorem Config.mnemonicOf_default_eq_none (h : c.OPC = Config.defaultOpcodes) :
    c.mnemonicOf w0 = none ↔ w0 ≤ 0 ∨ 30 ≤ w0 := by
  simp only [Config.mnemonicOf_eq_none, Config.opcodeOf_default h]
  constructor
  · intro hne
    by_contra hin
    obtain ⟨m, -, hm⟩ := Mnemonic.exists_index_eq (w0 - 1).toNat (by omega)
    exact hne m (by omega)
  · intro hout m
    have := m.index_lt
    omega

/-- Settles O5: the opcode words rejected are those that spell no mnemonic. -/
theorem illegalOpcodeWordsOfDefaultTable : Obligations.IllegalOpcodeWordsOfDefaultTable := fun _ _ =>
  decode_eq_illegalOpcode.trans (Config.mnemonicOf_default_eq_none rfl)

/-- Settles O4: the decoder is run on each of the twelve word sequences. -/
theorem specWordsDecode : Obligations.SpecWordsDecode :=
  ⟨rfl, rfl, rfl, rfl, rfl, rfl, rfl, rfl, rfl, rfl, rfl, rfl⟩

end Sys2Proof

namespace Sys2Proof.Machine

variable {s : State}

/-- An opcode word that spells no mnemonic ends the fetch with IllegalInstruction (R104). -/
theorem fetchInstr_illegalOpcode {w0 : Int} (hw : s.fetch 0 = some w0) (hm : s.cfg.mnemonicOf w0 = none) :
    fetchInstr s = .error .illegalInstruction := by
  simp only [fetchInstr, hw, hm]

/-- A running machine whose fetch fails raises that fault (R103 to R105). -/
theorem step_fetch_error {k : Fault} (hs : s.status = .running) (hf : fetchInstr s = .error k) :
    step s = .next (s.faultWith k) := by
  simp only [step_running hs, hf, raise_eq]

/-- A step in Idle takes the first pending command (R236). -/
theorem step_idle_command {c : Command} {cs : List Command} (hs : s.status = .idle) (hc : s.commands = c :: cs) :
    step s = accepted c { s with commands := cs } := by
  rw [step_not_running (by simp [hs]), takeCommand]
  simp only [hc]
  exact command_accepted (s := { s with commands := cs }) (.inl hs) c

/-- A newly constructed machine reads 0 as its first opcode word, whatever its status (R35, R67). -/
theorem fetch_initial {c : Config} (hc : 1 ≤ c.CAP) (x : Status) :
    ((State.initial c).setStatus x).fetch 0 = some 0 := by
  have hr : ((State.initial c).setStatus x).resolve 0 = some 0 := resolve_eq_some.2 ⟨by simp; omega, by simp, hc⟩
  simp only [State.fetch, setStatus_pc, initial_pc, Nat.cast_zero, add_zero, hr]
  rfl

/-- Settles O59: after `start` the first opcode word is an unwritten cell, and 0 spells no mnemonic under the default
table. -/
theorem startWithNothingLoadedIsIllegal : Obligations.StartWithNothingLoadedIsIllegal := by
  intro W CAP _ hCAP
  set c : Config := { W := W, CAP := CAP, OPC := Config.defaultOpcodes }
  have hstart : step { State.initial c with commands := [.start] } = .next ((State.initial c).setStatus .running) :=
    step_idle_command (s := { State.initial c with commands := [.start] }) rfl rfl
  have hfetch : fetchInstr ((State.initial c).setStatus .running) = .error .illegalInstruction :=
    fetchInstr_illegalOpcode (fetch_initial hCAP _) ((Config.mnemonicOf_default_eq_none rfl).2 (.inl le_rfl))
  refine ⟨((State.initial c).setStatus .running).faultWith .illegalInstruction, ?_, rfl⟩
  exact runSteps_succ_eq_next.2 ⟨_, hstart, runSteps_succ_eq_next.2 ⟨_, step_fetch_error rfl hfetch, rfl⟩⟩

end Sys2Proof.Machine
end

section
/-! The step and the run of R109: how a step of a running machine ends, what its faults leave, and where the loop under
fuel stops. -/

namespace Sys2Proof.Machine

variable {s t : State} {i : Instr}

/-- A step of a running machine whose fetch succeeds is the execute phase of the fetched instruction (R102). -/
theorem step_fetch_ok (hs : s.status = .running) (hf : fetchInstr s = .ok i) : step s = exec i s := by
  simp only [step_running hs, hf]

/-- A step of a running machine answers a next state (R100). -/
theorem running_step_answers (hs : s.status = .running) : ∃ t, step s = .next t := by
  cases hf : fetchInstr s with
  | error k => exact ⟨_, step_fetch_error hs hf⟩
  | ok i =>
    obtain ⟨t, ht, -⟩ := exec_effect s i
    exact ⟨t, (step_fetch_ok hs hf).trans ht⟩

/-- The three endings of the execute phase of a running machine; `PC` moves only when the status stays Running (R100,
R106). -/
theorem Effect.ends_in_three_ways (he : Effect i s t) (hs : s.status = .running) :
    t.status = .running ∨ (t.status = .halted ∧ t.pc = s.pc) ∨
      ∃ k : Fault, t.status = .faulted k t.pc t.sp ∧ t.pc = s.pc := by
  cases he with
  | fault k => exact .inr (.inr ⟨k, rfl, rfl⟩)
  | popFault => exact .inr (.inr ⟨.invalidAddress, rfl, rfl⟩)
  | halt => exact .inr (.inl ⟨rfl, rfl⟩)
  | cell | jump | sequential | emit | push | pop | mode => exact .inl hs

/-- Settles O16: the step answers, by the fault its fetch raised or by the effect of the fetched instruction. -/
theorem runningStepEndsInThreeWays : Obligations.RunningStepEndsInThreeWays := by
  intro s hs
  obtain ⟨t, ht⟩ := running_step_answers hs
  refine ⟨t, ht, ?_⟩
  rcases running_step_cases hs ht with ⟨k, -, rfl⟩ | ⟨i, -, he⟩
  · exact .inr (.inr ⟨k, rfl, rfl⟩)
  · exact he.ends_in_three_ways hs

/-- The state a faulting instruction of a running machine leaves: fault entry where it began, or, for a pop, after the
increment of `SP` (R107, R208). -/
theorem Effect.faulted_cases {k : Fault} {p q : Int} (he : Effect i s t) (hs : s.status = .running)
    (ht : t.status = .faulted k p q) :
    t = s.faultWith k ∨
      ((∃ a, i = .pop a ∨ i = .popp a) ∧ k = .invalidAddress ∧ t = (s.setSp (s.sp + 1)).faultWith k) := by
  cases he with
  | fault k' => cases ht; exact .inl rfl
  | popFault hi => cases ht; exact .inr ⟨Instr.eq_pop_or_popp hi, rfl, rfl⟩
  | halt => cases ht
  | cell | jump | sequential | emit | push | pop | mode => exact absurd (hs.symm.trans ht) (by simp)

/-- Settles O24: fault entry writes the status alone, and before it a pop has written `SP` alone. -/
theorem faultsArePrecise : Obligations.FaultsArePrecise := by
  intro i s t k p q hs h ht
  rcases (exec_cases h).faulted_cases hs ht with rfl | ⟨hi, rfl, rfl⟩
  · cases ht
    exact ⟨rfl, rfl, rfl, rfl, rfl, rfl, rfl, rfl, rfl, .inl rfl⟩
  · cases ht
    exact ⟨rfl, rfl, rfl, rfl, rfl, rfl, rfl, rfl, rfl, .inr ⟨rfl, rfl, hi⟩⟩

/-! ## The loop under fuel -/

/-- A step of a running machine takes no host command. -/
theorem running_step_commands (hs : s.status = .running) (h : step s = .next t) : t.commands = s.commands := by
  rcases running_step_cases hs h with ⟨k, -, rfl⟩ | ⟨i, -, he⟩
  · rfl
  · exact he.commands_eq

/-- The loop under fuel answers a state and takes no host command (R109). -/
theorem run_answers (n : Nat) (s : State) : ∃ t, run n s = .next t ∧ t.commands = s.commands := by
  induction n generalizing s with
  | zero => exact ⟨s, rfl, rfl⟩
  | succ n ih =>
    by_cases hs : s.status = .running
    · obtain ⟨u, hu⟩ := running_step_answers hs
      obtain ⟨t, ht, hc⟩ := ih u
      exact ⟨t, (run_succ_running hs hu n).trans ht, hc.trans (running_step_commands hs hu)⟩
    · exact ⟨s, run_not_running hs _, rfl⟩

/-- The loop with more fuel goes on from where the loop with less stopped. -/
theorem run_add {n : Nat} (h : run n s = .next t) (d : Nat) : run (n + d) s = run d t := by
  induction n generalizing s with
  | zero => cases h; rw [zero_add]
  | succ n ih =>
    by_cases hs : s.status = .running
    · obtain ⟨u, hu⟩ := running_step_answers hs
      rw [run_succ_running hs hu] at h
      rw [Nat.succ_add, run_succ_running hs hu, ih h]
    · rw [run_not_running hs] at h
      cases h
      rw [run_not_running hs, run_not_running hs]

/-- Where the run has ended, more fuel changes nothing (R243). -/
theorem run_of_ended {n m : Nat} (h : run n s = .next t) (ht : t.status ≠ .running) (hm : n ≤ m) :
    run m s = .next t := by
  obtain ⟨d, rfl⟩ := Nat.exists_eq_add_of_le hm
  rw [run_add h, run_not_running ht]

/-- When the loop stops only for want of fuel, every state on the way was Running (R243). -/
theorem runSteps_running_of_run {n : Nat} (h : run n s = .next t) (ht : t.status = .running) :
    ∀ k ≤ n, ∃ u, runSteps k s = .next u ∧ u.status = .running := by
  induction n generalizing s with
  | zero =>
    intro k hk
    cases h
    obtain rfl : k = 0 := Nat.le_zero.1 hk
    exact ⟨t, rfl, ht⟩
  | succ n ih =>
    have hs : s.status = .running := by
      by_contra hs
      rw [run_not_running hs] at h
      cases h
      exact hs ht
    obtain ⟨u, hu⟩ := running_step_answers hs
    rw [run_succ_running hs hu] at h
    rintro (_ | k) hk
    · exact ⟨s, rfl, hs⟩
    · obtain ⟨v, hv, hrun⟩ := ih h k (Nat.le_of_succ_le_succ hk)
      exact ⟨v, runSteps_succ_eq_next.2 ⟨u, hu, hv⟩, hrun⟩

/-- A run ends by HALT or by a fault that no loader raises (R100, R202). -/
theorem run_ends {n : Nat} (hs : s.status = .running) (h : run n s = .next t) (ht : t.status ≠ .running) :
    t.status = .halted ∨ ∃ (k : Fault) (p q : Int), t.status = .faulted k p q ∧ k ≠ .outOfCapacity := by
  induction n generalizing s with
  | zero => cases h; exact absurd hs ht
  | succ n ih =>
    obtain ⟨u, hu⟩ := running_step_answers hs
    rw [run_succ_running hs hu] at h
    by_cases hur : u.status = .running
    · exact ih hur h
    · rw [run_not_running hur] at h
      cases h
      exact running_step_ends hs hu ht

/-- The result of a run is read where the loop stops (R242). -/
theorem resultOfRun_eq {n : Nat} (h : run n s = .next t) : resultOfRun n s = t.runResult := by
  simp only [resultOfRun, h]

/-- Settles O58: where the loop stops for want of fuel every state was Running and nothing is shown; where the run has
ended the whole state is shown, and the loop stays there. -/
theorem runUnderFuelEndsWhereTheRunEnds : Obligations.RunUnderFuelEndsWhereTheRunEnds := by
  intro n s hs
  obtain ⟨t, h, hc⟩ := run_answers n s
  obtain ⟨hhidden, hshown, -⟩ := resultIsShownOnceTheRunHasEnded t
  refine ⟨t, h, hc, fun ht => ⟨?_, runSteps_running_of_run h ht⟩, fun ht => ?_⟩
  · exact (resultOfRun_eq h).trans (hhidden (.inr ht)).2
  · have hend := run_ends hs h ht
    exact ⟨hend, (resultOfRun_eq h).trans (hshown hend).2, fun m hm => run_of_ended h ht hm⟩

end Sys2Proof.Machine
end

section
/-! The fetch: which words it reads, and the three faults it can end with (R101 to R105). -/

namespace Sys2Proof.Machine

variable {s : State}

/-- A fetch fails exactly when its address does not resolve (R101). -/
theorem fetch_eq_none {k : Nat} : s.fetch k = none ↔ s.resolve (s.pc + k) = none := Option.map_eq_none_iff

/-- A fetch reads the cell its address resolves to (R101). -/
theorem fetch_eq_some {k : Nat} {w : Int} :
    s.fetch k = some w ↔ ∃ p : Nat, s.resolve (s.pc + k) = some p ∧ s.cell p = w := Option.map_eq_some_iff

/-- The opcode fetch reads the cell `PC` resolves to (R102). -/
theorem fetch_zero_of_resolve {p : Nat} (h : s.resolve s.pc = some p) : s.fetch 0 = some (s.cell p) :=
  fetch_eq_some.2 ⟨p, by simpa using h, rfl⟩

/-- Words that can be fetched one by one are the words fetched (R101). -/
theorem fetchWords_eq_some {ws : List Int} {j : Nat} (h : ∀ k w, ws[k]? = some w → s.fetch (j + k) = some w) :
    s.fetchWords ws.length j = some ws := by
  induction ws generalizing j with
  | nil => rfl
  | cons w ws ih =>
    have hw : s.fetch j = some w := h 0 w rfl
    have hws : s.fetchWords ws.length (j + 1) = some ws := ih fun k v hv => by
      rw [Nat.add_right_comm]
      exact h (k + 1) v hv
    simp only [List.length_cons, State.fetchWords, hw, hws]

/-- One word that cannot be fetched makes the fetch of the words fail (R105). -/
theorem fetchWords_eq_none {n j k : Nat} (hf : s.fetch k = none) (hj : j ≤ k) (hk : k < j + n) :
    s.fetchWords n j = none := by
  induction n generalizing j with
  | zero => omega
  | succ n ih =>
    rcases Nat.eq_or_lt_of_le hj with rfl | hlt
    · simp only [State.fetchWords, hf]
    · have hrest : s.fetchWords n (j + 1) = none := ih hlt (by omega)
      cases hw : s.fetch j <;> simp only [State.fetchWords, hw, hrest]

/-- The words of an instruction, fetched, are that instruction (R83, R85). -/
theorem fetchInstr_encode {i : Instr} (hc : s.cfg.wf)
    (h : ∀ k w, (encode s.cfg i)[k]? = some w → s.fetch k = some w) : fetchInstr s = .ok i := by
  have hop : s.fetch 0 = some (s.cfg.opcodeOf i.mnemonic) := h 0 _ rfl
  have hws : s.fetchWords (i.mnemonic.width - 1) 1 = some i.operands := by
    rw [← i.length_operands]
    exact fetchWords_eq_some fun k w hw => by
      rw [Nat.add_comm]
      exact h (k + 1) w hw
  have hi : i.mnemonic.instr i.operands = i := by simpa using i.instr_operands_append []
  simp only [fetchInstr, hop, Config.mnemonicOf_opcodeOf hc, hws, hi]

/-- An opcode word that cannot be fetched ends the fetch with InvalidAddress (R103). -/
theorem fetchInstr_opcode_unresolved (h : s.fetch 0 = none) : fetchInstr s = .error .invalidAddress := by
  simp only [fetchInstr, h]

/-- Operand words that cannot be fetched end the fetch with InvalidAddress (R105). -/
theorem fetchInstr_operand_unresolved {w0 : Int} {m : Mnemonic} (hw : s.fetch 0 = some w0)
    (hm : s.cfg.mnemonicOf w0 = some m) (hf : s.fetchWords (m.width - 1) 1 = none) :
    fetchInstr s = .error .invalidAddress := by
  simp only [fetchInstr, hw, hm, hf]

/-- Settles O12: the words that stand where the fetch reads are those of the instruction. -/
theorem stepRunsTheDecodedInstruction : Obligations.StepRunsTheDecodedInstruction := fun _ _ hs hc _ hwords =>
  step_fetch_ok hs (fetchInstr_encode hc fun k w hw => fetch_eq_some.2 (hwords k w hw))

/-- Settles O13: the opcode fetch is at `PC`. -/
theorem opcodeFetchFault : Obligations.OpcodeFetchFault := fun _ hs hres =>
  step_fetch_error hs (fetchInstr_opcode_unresolved (fetch_eq_none.2 (by simpa using hres)))

/-- Settles O14: the opcode word spells no mnemonic, and the words after it are not fetched. -/
theorem illegalOpcodeFault : Obligations.IllegalOpcodeFault := fun _ _ hs hres hop =>
  step_fetch_error hs (fetchInstr_illegalOpcode (fetch_zero_of_resolve hres) (Config.mnemonicOf_eq_none.2 hop))

/-- Settles O15: word `k` is one of the operand words that the width of `m` makes the step fetch. -/
theorem operandFetchFault : Obligations.OperandFetchFault := by
  intro s p m k hc hs hres hop h1 hk hnone
  have hm : s.cfg.mnemonicOf (s.cell p) = some m := by rw [hop, Config.mnemonicOf_opcodeOf hc]
  have hws : s.fetchWords (m.width - 1) 1 = none := fetchWords_eq_none (fetch_eq_none.2 hnone) h1 (by omega)
  exact step_fetch_error hs (fetchInstr_operand_unresolved (fetch_zero_of_resolve hres) hm hws)

end Sys2Proof.Machine
end

section
/-! The arithmetic instructions: what a rule with two address operands does, and what ADD, SUB, MUL and DIV write
(R120 to R125). -/

namespace Sys2Proof.Machine

variable {s : State}

/-! ## Two address operands -/

/-- A rule with two address operands that both resolve is its rest at the two indices. -/
theorem withAddr_withAddr_some {a b : Int} {d e : Nat} (hd : s.resolve a = some d) (he : s.resolve b = some e)
    (rest : Nat → Nat → Outcome) : (withAddr s a fun p => withAddr s b (rest p)) = rest d e := by
  rw [withAddr_some hd, withAddr_some he]

/-- A rule with two address operands of which one does not resolve raises InvalidAddress. -/
theorem withAddr_withAddr_none {a b : Int} (h : s.resolve a = none ∨ s.resolve b = none)
    (rest : Nat → Nat → Outcome) :
    (withAddr s a fun p => withAddr s b (rest p)) = .next (s.faultWith .invalidAddress) := by
  cases ha : s.resolve a with
  | none => exact withAddr_none ha _
  | some p =>
    have hb : s.resolve b = none := h.resolve_left (by simp [ha])
    rw [withAddr_some ha, withAddr_none hb]

/-! ## ADD, SUB and MUL -/

variable {dest src : Int} {d e : Nat}

/-- What ADD, SUB and MUL do to two cells (R121 to R123). -/
theorem wrappingOp_some (hd : s.resolve dest = some d) (he : s.resolve src = some e) (op : Int → Int → Int) :
    wrappingOp op dest src s = .next ((s.setCell d (wrap s.cfg.W (op (s.cell d) (s.cell e)))).advance 3) :=
  withAddr_withAddr_some hd he _

/-- ADD, SUB and MUL of an address that does not resolve. -/
theorem wrappingOp_none (h : s.resolve dest = none ∨ s.resolve src = none) (op : Int → Int → Int) :
    wrappingOp op dest src s = .next (s.faultWith .invalidAddress) :=
  withAddr_withAddr_none h _

/-- Settles O28: the three instructions are `wrappingOp` of their operation. -/
theorem addSubMulResults : Obligations.AddSubMulResults := by
  intro s dest src
  refine ⟨fun d e hd he => ⟨wrappingOp_some hd he _, wrappingOp_some hd he _, wrappingOp_some hd he _⟩, ?_⟩
  simp only [List.forall_mem_cons]
  exact fun h => ⟨wrappingOp_none h _, wrappingOp_none h _, wrappingOp_none h _, by simp⟩

/-! ## DIV -/

/-- DIV of two cells outside the two corners (R124). -/
theorem execDiv_quotient (hd : s.resolve dest = some d) (he : s.resolve src = some e) (h0 : s.cell e ≠ 0)
    (hmin : ¬ (s.cell d = minCell s.cfg.W ∧ s.cell e = -1)) :
    execDiv dest src s = .next ((s.setCell d (truncDiv (s.cell d) (s.cell e))).advance 3) := by
  rw [execDiv, withAddr_withAddr_some hd he, if_neg h0, if_neg hmin]

/-- DIV of two cells in one of the two corners (R124). -/
theorem execDiv_arithmetic (hd : s.resolve dest = some d) (he : s.resolve src = some e)
    (h : s.cell e = 0 ∨ (s.cell d = minCell s.cfg.W ∧ s.cell e = -1)) :
    execDiv dest src s = .next (s.faultWith .arithmetic) := by
  rw [execDiv, withAddr_withAddr_some hd he]
  split_ifs with h0 hmin
  · rfl
  · rfl
  · exact absurd h (not_or.2 ⟨h0, hmin⟩)

/-- DIV of an address that does not resolve. -/
theorem execDiv_invalidAddress (h : s.resolve dest = none ∨ s.resolve src = none) :
    execDiv dest src s = .next (s.faultWith .invalidAddress) :=
  withAddr_withAddr_none h _

/-- Settles O29: DIV outside its two corners, in one of them, and with an address that does not resolve. -/
theorem divResult : Obligations.DivResult := fun _ _ _ =>
  ⟨fun _ _ hd he => ⟨execDiv_quotient hd he, execDiv_arithmetic hd he⟩, execDiv_invalidAddress⟩

/-! ## The quotient -/

/-- What the truncated quotient leaves over is the remainder with the sign of the dividend (R120). -/
theorem sub_truncDiv_mul (x y : Int) : x - truncDiv x y * y = Int.tmod x y := by
  rw [Int.tmod_def, truncDiv, Int.mul_comm]

/-- In the corner `MIN_W / -1` the quotient is `MAX_W + 1`, which is no cell (R124). -/
theorem not_fits_truncDiv_minCell (W : Nat) : ¬ Fits W (truncDiv (minCell W) (-1)) := by
  have hq : truncDiv (minCell W) (-1) = maxCell W + 1 := by
    simp [truncDiv, minCell, maxCell, Int.tdiv_neg]
  rw [hq]
  simp only [Fits]
  omega

/-- Settles O7: the remainder is `Int.tmod`, smaller than the divisor and of the sign of the dividend; the quotient is
a cell in every case but the one corner. -/
theorem divQuotientRoundsTowardZero : Obligations.DivQuotientRoundsTowardZero := by
  intro W x y hx _ hy
  rw [sub_truncDiv_mul]
  refine ⟨?_, Int.tmod_nonneg y, fun hx0 => ?_, fits_truncDiv hx hy, ?_⟩
  · rw [Int.natAbs_tmod]
    exact Nat.mod_lt _ (Int.natAbs_pos.2 hy)
  · have hneg : 0 ≤ Int.tmod (-x) y := Int.tmod_nonneg y (by omega)
    rw [Int.neg_tmod] at hneg
    omega
  · rintro ⟨rfl, rfl⟩
    exact not_fits_truncDiv_minCell W

end Sys2Proof.Machine
end

section
/-! Data movement: what a rule with a pointer operand does, what MOVE, LOAD, STORE and STOREP write, and PRINT after
LOAD (R130 to R133). -/

namespace Sys2Proof.Machine

variable {s t : State}

/-! ## MOVE -/

/-- Settles O30: MOVE is a rule with two address operands. -/
theorem moveResult : Obligations.MoveResult := fun _ _ _ =>
  ⟨fun _ _ hd he => withAddr_withAddr_some hd he _, fun h => withAddr_withAddr_none h _⟩

/-! ## LOAD, and PRINT after it -/

/-- LOAD to an address that resolves: the immediate itself is written (R131). -/
theorem execLoad_some {dest : Int} {d : Nat} (h : s.resolve dest = some d) (imm : Int) :
    exec (.load dest imm) s = .next ((s.setCell d imm).advance 3) :=
  withAddr_some h _

/-- LOAD to an address that does not resolve. -/
theorem execLoad_none {dest : Int} (h : s.resolve dest = none) (imm : Int) :
    exec (.load dest imm) s = .next (s.faultWith .invalidAddress) :=
  withAddr_none h _

/-- PRINT of an address that resolves: the record has the address as written and the value of the cell (R172). -/
theorem execPrint_some {addr : Int} {p : Nat} (h : s.resolve addr = some p) :
    exec (.print addr) s = .next ((s.emit (.int addr (s.cell p))).advance 2) :=
  withAddr_some h _

/-- An instruction that answers a next state hands it to the ones after it. -/
theorem execAll_cons {i : Instr} (hs : s.status = .running) (h : exec i s = .next t) (is : List Instr) :
    execAll (i :: is) s = execAll is t := by
  simp only [execAll, if_pos hs, h]

/-- LOAD then PRINT of an address that resolves: PRINT reads the cell LOAD has just written (R131). -/
theorem execAll_load_print {dest : Int} {d : Nat} (hm : s.mem.wf) (hs : s.status = .running)
    (hd : s.resolve dest = some d) (imm : Int) :
    execAll [.load dest imm, .print dest] s =
      .next ((((s.setCell d imm).advance 3).emit (.int dest imm)).advance 2) := by
  have hcell : ((s.setCell d imm).advance 3).cell d = imm := by simp [setCell_cell hm]
  have hrun : ((s.setCell d imm).advance 3).status = .running := hs
  have hprint := execPrint_some (s := (s.setCell d imm).advance 3) hd
  rw [hcell] at hprint
  rw [execAll_cons hs (execLoad_some hd imm), execAll_cons hrun hprint, execAll]

/-- Settles O31: LOAD of an address that resolves and of one that does not, and PRINT after LOAD. -/
theorem loadResult : Obligations.LoadResult := fun s _ imm =>
  ⟨fun _ hd => execLoad_some hd imm, fun h => execLoad_none h imm, fun _ hm hs hd =>
    ⟨_, execAll_load_print hm hs hd imm, rfl, Int.add_assoc s.pc 3 2, hs⟩⟩

/-! ## A pointer operand -/

/-- A rule with a pointer operand that resolves is its rest at the index the pointer leads to (R55). -/
theorem withPtr_of_ptrResolves {w : Int} {d : Nat} (h : s.PtrResolves w d) (rest : Nat → Outcome) :
    withPtr s w rest = rest d := by
  obtain ⟨r, hr, hd⟩ := h
  exact withPtr_some hr hd rest

/-- A rule with a pointer operand raises InvalidAddress when its rest does wherever the pointer leads; so it does when
the pointer leads nowhere. -/
theorem withPtr_invalidAddress {w : Int} {rest : Nat → Outcome}
    (h : ∀ d, s.PtrResolves w d → rest d = .next (s.faultWith .invalidAddress)) :
    withPtr s w rest = .next (s.faultWith .invalidAddress) := by
  cases hr : s.resolve w with
  | none => exact withPtr_none hr rest
  | some r =>
    cases hd : s.resolve (s.cell r) with
    | none => exact withPtr_some_none hr hd rest
    | some d => rw [withPtr_some hr hd, h d ⟨r, hr, hd⟩]

/-- A pointer operand leads nowhere when its own cell does not resolve, or the value of that cell does not. -/
theorem not_ptrResolves {w : Int}
    (h : s.resolve w = none ∨ ∃ r, s.resolve w = some r ∧ s.resolve (s.cell r) = none) (d : Nat) :
    ¬ s.PtrResolves w d := by
  rcases h with h | ⟨r, hr, h⟩
  · rintro ⟨q, hq, -⟩
    simp [h] at hq
  · simp [State.PtrResolves.iff_of_resolve hr, h]

/-! ## STORE and STOREP -/

variable {ptr destPtr src srcPtr : Int} {d e : Nat}

/-- STORE through a pointer that leads to a cell (R132). -/
theorem execStore_copies (hd : s.PtrResolves ptr d) (he : s.resolve src = some e) :
    exec (.store ptr src) s = .next ((s.setCell d (s.cell e)).advance 3) :=
  (withPtr_of_ptrResolves hd _).trans (withAddr_some he _)

/-- STORE of which one resolution fails. -/
theorem execStore_invalidAddress (h : ∀ d, s.PtrResolves ptr d → s.resolve src = none) :
    exec (.store ptr src) s = .next (s.faultWith .invalidAddress) :=
  withPtr_invalidAddress fun d hd => withAddr_none (h d hd) _

/-- STOREP through two pointers that lead to cells (R133). -/
theorem execStorep_copies (hd : s.PtrResolves destPtr d) (he : s.PtrResolves srcPtr e) :
    exec (.storep destPtr srcPtr) s = .next ((s.setCell d (s.cell e)).advance 3) :=
  (withPtr_of_ptrResolves hd _).trans (withPtr_of_ptrResolves he _)

/-- STOREP of which one resolution fails. -/
theorem execStorep_invalidAddress (h : ∀ d e, s.PtrResolves destPtr d → ¬ s.PtrResolves srcPtr e) :
    exec (.storep destPtr srcPtr) s = .next (s.faultWith .invalidAddress) :=
  withPtr_invalidAddress fun d hd => withPtr_invalidAddress fun e he => absurd he (h d e hd)

/-- Settles O32: both instructions with every pointer leading to a cell, and with one resolution failing: a
destination pointer that leads nowhere, a source that does not resolve, a source pointer that leads nowhere. -/
theorem storeAndStorepResults : Obligations.StoreAndStorepResults := by
  intro s dptr src
  refine ⟨fun r d e hr hd he => execStore_copies ⟨r, hr, hd⟩ he,
    fun r d q e hr hd hq he => execStorep_copies ⟨r, hr, hd⟩ ⟨q, hq, he⟩, fun h => ?_,
    fun r hr hnone => execStorep_invalidAddress fun _ e _ => not_ptrResolves (.inr ⟨r, hr, hnone⟩) e⟩
  simp only [List.forall_mem_cons]
  rcases or_assoc.2 h with hdest | hsrc
  · have hno := not_ptrResolves hdest
    exact ⟨execStore_invalidAddress fun d hd => absurd hd (hno d),
      execStorep_invalidAddress fun d _ hd => absurd hd (hno d), by simp⟩
  · exact ⟨execStore_invalidAddress fun _ _ => hsrc,
      execStorep_invalidAddress fun _ e _ => not_ptrResolves (.inl hsrc) e, by simp⟩

end Sys2Proof.Machine
end

section
/-! The jumps: where they leave `PC`, the relative forms as absolute ones, and the fetch at a target that does not
resolve (R140 to R154). -/

namespace Sys2Proof.Machine

variable {s t : State} {a b : Int} {p q : Nat}

/-! ## Absolute jumps -/

/-- A comparison jump whose addresses resolve writes `PC` alone: the target when its comparison holds, the next
instruction when not (R140, R144). -/
theorem jumpIf_some (ha : s.resolve a = some p) (hb : s.resolve b = some q) {c : Cond} {P : Prop} [Decidable P]
    (hc : c.holds (s.cell p) (s.cell q) = decide P) (target : Int) :
    jumpIf c a b target s = .next (s.setPc (if P then target else s.pc + 4)) := by
  rw [jumpIf, withAddr_withAddr_some ha hb, hc]
  by_cases hP : P
  · rw [if_pos (decide_eq_true hP), if_pos hP]
  · rw [if_neg (by simpa using hP), if_neg hP]
    rfl

/-- A comparison jump of an address that does not resolve. -/
theorem jumpIf_none (h : s.resolve a = none ∨ s.resolve b = none) (c : Cond) (target : Int) :
    jumpIf c a b target s = .next (s.faultWith .invalidAddress) :=
  withAddr_withAddr_none h _

/-- Settles O33: the comparison jumps are `jumpIf` of their condition; JMP resolves nothing. -/
theorem absoluteJumpResults : Obligations.AbsoluteJumpResults := by
  intro s a b target
  refine ⟨fun p q ha hb => ⟨jumpIf_some ha hb rfl target, jumpIf_some ha hb rfl target,
    jumpIf_some ha hb rfl target, jumpIf_some ha hb rfl target⟩, ?_, rfl⟩
  simp only [List.forall_mem_cons]
  exact fun h => ⟨jumpIf_none h .lt target, jumpIf_none h .le target, jumpIf_none h .ge target,
    jumpIf_none h .gt target, by simp⟩

/-! ## Relative jumps -/

/-- Settles O35: each relative jump is its absolute form, at the sum as the target. -/
theorem relativeAndAbsoluteJumpsAgree : Obligations.RelativeAndAbsoluteJumpsAgree := fun _ _ _ _ =>
  ⟨rfl, rfl, rfl, rfl, rfl⟩

/-- Settles O34: the relative jumps do what the absolute ones to `PC + offset` do. -/
theorem relativeJumpResults : Obligations.RelativeJumpResults := by
  intro s a b offset
  obtain ⟨hlt, hle, hge, hgt, hjmp⟩ := relativeAndAbsoluteJumpsAgree s a b offset
  have habs := absoluteJumpResults s a b (s.pc + offset)
  simp only [List.forall_mem_cons] at habs ⊢
  rwa [hlt, hle, hge, hgt, hjmp]

/-! ## The fetch at the target -/

/-- `Resolve` reads the configuration and `MODE`, no other field (R53). -/
theorem resolve_congr (hc : t.cfg = s.cfg) (hm : t.mode = s.mode) (x : Int) : t.resolve x = s.resolve x := by
  simp only [State.resolve, hc, hm]

/-- Settles O36: a jump leaves `MODE` and `SP`, so the opcode fetch at the target fails as it would have before the
jump. -/
theorem jumpTargetIsCheckedAtTheNextFetch : Obligations.JumpTargetIsCheckedAtTheNextFetch := by
  refine fun s a b target _ => ⟨rfl, fun i hi t h hrun hpc hnone => ?_⟩
  have he := exec_cases h
  have hjump : i.mnemonic ∈ [Mnemonic.jlt, .jle, .jge, .jgt, .jmp] := by
    simpa [Instr.mnemonic] using List.mem_map_of_mem (f := Instr.mnemonic) hi
  have hsp : t.sp = s.sp := he.sp_eq (by revert hjump; cases i.mnemonic <;> decide)
  have hmode : t.mode = s.mode := he.mode_eq (by revert hjump; cases i.mnemonic <;> decide)
  have hfetch : t.resolve t.pc = none := by rw [resolve_congr he.cfg_eq hmode, hpc, hnone]
  rw [← hpc, ← hsp]
  exact opcodeFetchFault t hrun hfetch

end Sys2Proof.Machine
end

section
/-! INCR and DECR: what they write when their address resolves, and their fault when it does not (R160, R161). -/

namespace Sys2Proof.Machine

variable {s : State} {addr : Int} {d : Nat}

/-- INCR of an address that resolves (R160). -/
theorem execIncr_some (h : s.resolve addr = some d) :
    exec (.incr addr) s = .next ((s.setCell d (wrap s.cfg.W (s.cell d + 1))).advance 2) :=
  withAddr_some h _

/-- DECR of an address that resolves (R161). -/
theorem execDecr_some (h : s.resolve addr = some d) :
    exec (.decr addr) s = .next ((s.setCell d (wrap s.cfg.W (s.cell d - 1))).advance 2) :=
  withAddr_some h _

/-- INCR of an address that does not resolve. -/
theorem execIncr_none (h : s.resolve addr = none) : exec (.incr addr) s = .next (s.faultWith .invalidAddress) :=
  withAddr_none h _

/-- DECR of an address that does not resolve. -/
theorem execDecr_none (h : s.resolve addr = none) : exec (.decr addr) s = .next (s.faultWith .invalidAddress) :=
  withAddr_none h _

/-- Settles O37: both instructions with an address that resolves, and with one that does not. -/
theorem incrDecrResults : Obligations.IncrDecrResults := by
  refine fun s addr => ⟨fun d hd => ⟨execIncr_some hd, execDecr_some hd⟩, ?_⟩
  simp only [List.forall_mem_cons]
  exact fun h => ⟨execIncr_none h, execDecr_none h, by simp⟩

end Sys2Proof.Machine
end

section
/-! PRINT, PRINTC and PRINTS: the record each appends and the faults it raises, and the text lines of the records the
vectors show (R170 to R174). -/

namespace Sys2Proof.Machine

variable {s : State} {addr : Int} {p : Nat}

/-! ## PRINT -/

/-- PRINT of an address that does not resolve. -/
theorem execPrint_none (h : s.resolve addr = none) : exec (.print addr) s = .next (s.faultWith .invalidAddress) :=
  withAddr_none h _

/-! ## PRINTC -/

/-- With `W` other than 8, PRINTC raises WidthPrecondition, whatever its address resolves to (R171, R212). -/
theorem execPrintc_widthPrecondition (hW : s.cfg.W ≠ 8) :
    exec (.printc addr) s = .next (s.faultWith .widthPrecondition) :=
  if_pos hW

/-- With `W = 8`, PRINTC of an address that resolves emits the low byte of the cell (R173). -/
theorem execPrintc_some (hW : s.cfg.W = 8) (h : s.resolve addr = some p) :
    exec (.printc addr) s = .next ((s.emit (.char addr (lowByte (s.cell p)))).advance 2) :=
  (if_neg (not_not.2 hW)).trans (withAddr_some h _)

/-- With `W = 8`, PRINTC of an address that does not resolve. -/
theorem execPrintc_none (hW : s.cfg.W = 8) (h : s.resolve addr = none) :
    exec (.printc addr) s = .next (s.faultWith .invalidAddress) :=
  (if_neg (not_not.2 hW)).trans (withAddr_none h _)

/-- Settles O38: PRINT resolves its address, PRINTC checks `W` and then resolves its own. -/
theorem printAndPrintcResults : Obligations.PrintAndPrintcResults := fun _ _ =>
  ⟨fun _ hp => execPrint_some hp, fun h => execPrint_none h, fun _ hW hp => execPrintc_some hW hp,
    fun hW h => execPrintc_none hW h, fun hW => execPrintc_widthPrecondition hW⟩

/-! ## PRINTS -/

/-- With `W` other than 8, PRINTS raises WidthPrecondition, whatever its address resolves to (R171, R212). -/
theorem execPrints_widthPrecondition (hW : s.cfg.W ≠ 8) :
    exec (.prints addr) s = .next (s.faultWith .widthPrecondition) :=
  if_pos hW

/-- With `W = 8`, PRINTS of an address that does not resolve. -/
theorem execPrints_none (hW : s.cfg.W = 8) (h : s.resolve addr = none) :
    exec (.prints addr) s = .next (s.faultWith .invalidAddress) :=
  (if_neg (not_not.2 hW)).trans (withAddr_none h _)

/-- With `W = 8`, PRINTS whose scan finds a terminator emits the bytes the scan met before it (R174). -/
theorem execPrints_of_scan_some {bytes : List Byte} (hW : s.cfg.W = 8) (h : s.resolve addr = some p)
    (hscan : s.mem.scanString (s.cfg.CAP - p) p = some bytes) :
    exec (.prints addr) s = .next ((s.emit (.str addr bytes)).advance 2) := by
  rw [exec, execPrints, if_neg (not_not.2 hW), withAddr_some h, hscan]

/-- With `W = 8`, PRINTS whose scan runs up to `CAP` raises InvalidAddress (R174). -/
theorem execPrints_of_scan_none (hW : s.cfg.W = 8) (h : s.resolve addr = some p)
    (hscan : s.mem.scanString (s.cfg.CAP - p) p = none) :
    exec (.prints addr) s = .next (s.faultWith .invalidAddress) := by
  rw [exec, execPrints, if_neg (not_not.2 hW), withAddr_some h, hscan, raise_eq]

/-- Settles O39: the scan from `p` sees the `CAP - p` cells from `p` on, so it ends at the first zero cell when there
is one among them, and runs out when there is none. -/
theorem printsResult : Obligations.PrintsResult := by
  refine fun s addr => ⟨fun p n hW hp hlt hnonzero hzero => ?_, fun p hW hp hnonzero => ?_,
    fun hW h => execPrints_none hW h, fun hW => execPrints_widthPrecondition hW⟩
  · have hn : n < s.cfg.CAP - p := by omega
    exact execPrints_of_scan_some hW hp (scanString_eq_some s.mem hn hnonzero hzero)
  · have hscan : s.mem.scanString (s.cfg.CAP - p) p = none :=
      scanString_eq_none s.mem fun j hj => hnonzero (p + j) (by omega) (by omega)
    exact execPrints_of_scan_none hW hp hscan

/-! ## The text line of a record -/

/-- Settles O40: the five records are closed values and their lines are computed. -/
theorem recordsRenderAsTheSpecsLines : Obligations.RecordsRenderAsTheSpecsLines :=
  ⟨by decide, by decide, by decide, by decide, by decide⟩

end Sys2Proof.Machine
end

section
/-! PUSH, PUSHP, POP and POPP: what each does when its check passes and all resolves, its faults, the round trip of PUSH
then POP, and how many pushes fit above `SP_LIMIT` (R180 to R188). -/

namespace Sys2Proof.Machine

variable {s : State} {w : Int} {d t p : Nat}

/-- A resolving rule raises InvalidAddress when its rest does at whatever index the address resolves to; so it does when
the address does not resolve. -/
theorem resolving_invalidAddress {a : Int} {rest : Nat → Outcome}
    (h : ∀ p, s.resolve a = some p → rest p = .next (s.faultWith .invalidAddress)) :
    resolving s a rest = .next (s.faultWith .invalidAddress) := by
  cases ha : s.resolve a with
  | none => exact resolving_none ha rest
  | some p => rw [resolving_some ha, h p ha]

/-! ## The states a stack instruction leaves -/

/-- The state a push of the value `v` leaves when `SP` resolves to `t` (R183, R184). -/
def State.pushed (s : State) (t : Nat) (v : Int) : State := ((s.setCell t v).setSp (s.sp - 1)).advance 2

/-- The state a pop to the cell `d` leaves when `SP + 1` resolves to `t` (R185, R186). -/
def State.popped (s : State) (t d : Nat) : State := ((s.setSp (s.sp + 1)).setCell d (s.cell t)).advance 2

/-- The state a pop leaves when one of its resolutions fails: the record shows the incremented `SP` (R107, R185). -/
def State.popFaulted (s : State) : State := (s.setSp (s.sp + 1)).faultWith .invalidAddress

@[simp] theorem pushed_cfg (v : Int) : (s.pushed t v).cfg = s.cfg := rfl
@[simp] theorem pushed_pc (v : Int) : (s.pushed t v).pc = s.pc + 2 := rfl
@[simp] theorem pushed_sp (v : Int) : (s.pushed t v).sp = s.sp - 1 := rfl
@[simp] theorem pushed_spLimit (v : Int) : (s.pushed t v).spLimit = s.spLimit := rfl
@[simp] theorem pushed_status (v : Int) : (s.pushed t v).status = s.status := rfl
@[simp] theorem pushed_resolve (v a : Int) : (s.pushed t v).resolve a = s.resolve a := rfl
@[simp] theorem popped_pc : (s.popped t d).pc = s.pc + 2 := rfl
@[simp] theorem popped_sp : (s.popped t d).sp = s.sp + 1 := rfl
@[simp] theorem popped_status : (s.popped t d).status = s.status := rfl

/-- A push writes its value to the cell of the stack access and to no other. -/
theorem pushed_cell (hm : s.mem.wf) (v : Int) (q : Nat) :
    (s.pushed t v).cell q = if q = t then v else s.cell q :=
  setCell_cell hm t q v

/-- A pop copies the cell of the stack access to its destination and to no other cell. -/
theorem popped_cell (hm : s.mem.wf) (q : Nat) : (s.popped t d).cell q = if q = d then s.cell t else s.cell q :=
  setCell_cell (s := s.setSp (s.sp + 1)) hm d q (s.cell t)

/-! ## PUSH and PUSHP -/

/-- A push whose stack access succeeds (R183, R184). -/
theorem pushValue_some (h : s.resolve s.sp = some t) (v : Int) : pushValue v s = .next (s.pushed t v) :=
  withStackTop_some h _

/-- A push whose stack access fails (R183, R184). -/
theorem pushValue_none (h : s.resolve s.sp = none) (v : Int) :
    pushValue v s = .next (s.faultWith .invalidAddress) :=
  withStackTop_none h _

/-- PUSH below `SP_LIMIT` (R181, R183). -/
theorem execPush_overflow (h : s.sp < s.spLimit) : exec (.push w) s = .next (s.faultWith .stackOverflow) :=
  if_pos h

/-- PUSHP below `SP_LIMIT` (R181, R184). -/
theorem execPushp_overflow (h : s.sp < s.spLimit) : exec (.pushp w) s = .next (s.faultWith .stackOverflow) :=
  if_pos h

/-- PUSH at or above `SP_LIMIT` with both resolutions succeeding (R183). -/
theorem execPush_some (hlim : s.spLimit ≤ s.sp) (hp : s.resolve w = some p) (ht : s.resolve s.sp = some t) :
    exec (.push w) s = .next (s.pushed t (s.cell p)) :=
  calc exec (.push w) s = withAddr s w fun p => pushValue (s.cell p) s := if_neg hlim.not_gt
    _ = pushValue (s.cell p) s := withAddr_some hp _
    _ = .next (s.pushed t (s.cell p)) := pushValue_some ht _

/-- PUSHP at or above `SP_LIMIT` with all resolutions succeeding (R184). -/
theorem execPushp_some (hlim : s.spLimit ≤ s.sp) (hp : s.PtrResolves w p) (ht : s.resolve s.sp = some t) :
    exec (.pushp w) s = .next (s.pushed t (s.cell p)) :=
  calc exec (.pushp w) s = withPtr s w fun p => pushValue (s.cell p) s := if_neg hlim.not_gt
    _ = pushValue (s.cell p) s := withPtr_of_ptrResolves hp _
    _ = .next (s.pushed t (s.cell p)) := pushValue_some ht _

/-- PUSH at or above `SP_LIMIT` of which one resolution fails (R183). -/
theorem execPush_invalidAddress (hlim : s.spLimit ≤ s.sp) (h : ∀ p, s.resolve w = some p → s.resolve s.sp = none) :
    exec (.push w) s = .next (s.faultWith .invalidAddress) :=
  (if_neg hlim.not_gt).trans (resolving_invalidAddress fun p hp => pushValue_none (h p hp) _)

/-- PUSHP at or above `SP_LIMIT` of which one resolution fails (R184). -/
theorem execPushp_invalidAddress (hlim : s.spLimit ≤ s.sp) (h : ∀ p, s.PtrResolves w p → s.resolve s.sp = none) :
    exec (.pushp w) s = .next (s.faultWith .invalidAddress) :=
  (if_neg hlim.not_gt).trans (withPtr_invalidAddress fun p hp => pushValue_none (h p hp) _)

/-- Settles O41: the check fails; it passes and all resolves; it passes and the operand, `SP` or the value of PUSHP's
pointer does not resolve. -/
theorem pushResults : Obligations.PushResults := by
  intro s w
  refine ⟨fun hlt => ?_, fun p t hlim hp ht => execPush_some hlim hp ht,
    fun r p t hlim hr hp ht => execPushp_some hlim ⟨r, hr, hp⟩ ht, fun hlim h => ?_,
    fun r hlim hr hnone => execPushp_invalidAddress hlim fun p hp =>
      absurd hp (not_ptrResolves (.inr ⟨r, hr, hnone⟩) p)⟩
  · simp only [List.forall_mem_cons]
    exact ⟨execPush_overflow hlt, execPushp_overflow hlt, by simp⟩
  · have hsp : (s.resolve w).isSome → s.resolve s.sp = none := fun hw =>
      h.resolve_left (Option.isSome_iff_ne_none.1 hw)
    simp only [List.forall_mem_cons]
    exact ⟨execPush_invalidAddress hlim fun _ hp => hsp (Option.isSome_of_mem hp),
      execPushp_invalidAddress hlim fun _ hp => hsp hp.isSome, by simp⟩

/-! ## POP and POPP -/

/-- POP at or above `CAP` (R182, R185). -/
theorem execPop_underflow (h : s.sp ≥ s.cfg.CAP) : exec (.pop w) s = .next (s.faultWith .stackUnderflow) :=
  if_pos h

/-- POPP at or above `CAP` (R182, R186). -/
theorem execPopp_underflow (h : s.sp ≥ s.cfg.CAP) : exec (.popp w) s = .next (s.faultWith .stackUnderflow) :=
  if_pos h

/-- POP below `CAP` is a rule with a stack access and an address operand, in the state with `SP` incremented (R185). -/
theorem execPop_of_lt (hcap : s.sp < s.cfg.CAP) :
    exec (.pop w) s = withStackTop (s.setSp (s.sp + 1)) fun t => withAddr (s.setSp (s.sp + 1)) w fun d =>
      .next (s.popped t d) :=
  if_neg hcap.not_ge

/-- POPP below `CAP` is a rule with a stack access and a pointer operand, in the state with `SP` incremented (R186). -/
theorem execPopp_of_lt (hcap : s.sp < s.cfg.CAP) :
    exec (.popp w) s = withStackTop (s.setSp (s.sp + 1)) fun t => withPtr (s.setSp (s.sp + 1)) w fun d =>
      .next (s.popped t d) :=
  if_neg hcap.not_ge

/-- POP below `CAP` with both resolutions succeeding (R185). -/
theorem execPop_some (hcap : s.sp < s.cfg.CAP) (ht : s.resolve (s.sp + 1) = some t) (hd : s.resolve w = some d) :
    exec (.pop w) s = .next (s.popped t d) :=
  (execPop_of_lt hcap).trans ((withStackTop_some ht _).trans (withAddr_some (s := s.setSp (s.sp + 1)) hd _))

/-- POPP below `CAP` with all resolutions succeeding (R186). -/
theorem execPopp_some (hcap : s.sp < s.cfg.CAP) (ht : s.resolve (s.sp + 1) = some t) (hd : s.PtrResolves w d) :
    exec (.popp w) s = .next (s.popped t d) :=
  (execPopp_of_lt hcap).trans ((withStackTop_some ht _).trans (withPtr_of_ptrResolves (s := s.setSp (s.sp + 1)) hd _))

/-- POP below `CAP` of which one resolution fails (R185). -/
theorem execPop_invalidAddress (hcap : s.sp < s.cfg.CAP)
    (h : ∀ t, s.resolve (s.sp + 1) = some t → s.resolve w = none) :
    exec (.pop w) s = .next s.popFaulted :=
  (execPop_of_lt hcap).trans (resolving_invalidAddress fun t ht => withAddr_none (s := s.setSp (s.sp + 1)) (h t ht) _)

/-- POPP below `CAP` of which one resolution fails (R186). -/
theorem execPopp_invalidAddress (hcap : s.sp < s.cfg.CAP)
    (h : ∀ t d, s.resolve (s.sp + 1) = some t → ¬ s.PtrResolves w d) :
    exec (.popp w) s = .next s.popFaulted :=
  (execPopp_of_lt hcap).trans <| resolving_invalidAddress fun t ht =>
    withPtr_invalidAddress fun d hd => absurd hd (h t d ht)

/-- Both pops below `CAP` when `SP + 1` or the operand does not resolve (R185, R186). -/
theorem pops_invalidAddress (hcap : s.sp < s.cfg.CAP) (h : s.resolve (s.sp + 1) = none ∨ s.resolve w = none) :
    ∀ i ∈ [Instr.pop w, Instr.popp w], exec i s = .next s.popFaulted := by
  have hw : ∀ t, s.resolve (s.sp + 1) = some t → s.resolve w = none := fun _ ht => h.resolve_left (by simp [ht])
  simp only [List.forall_mem_cons]
  exact ⟨execPop_invalidAddress hcap hw,
    execPopp_invalidAddress hcap fun t d ht => not_ptrResolves (.inl (hw t ht)) d, by simp⟩

/-- Settles O42: the check fails; it passes and all resolves; it passes and `SP + 1`, the operand or the value of POPP's
pointer does not resolve; and from `SP = CAP - 1` it is `SP + 1` that does not. -/
theorem popResults : Obligations.PopResults := by
  intro s w
  refine ⟨fun hge => ?_, fun t d hcap ht hd => execPop_some hcap ht hd,
    fun t r d hcap ht hr hd => execPopp_some hcap ht ⟨r, hr, hd⟩, pops_invalidAddress,
    fun r hcap hr hnone => execPopp_invalidAddress hcap fun _ d _ => not_ptrResolves (.inr ⟨r, hr, hnone⟩) d,
    fun hsp => ?_⟩
  · simp only [List.forall_mem_cons]
    exact ⟨execPop_underflow hge, execPopp_underflow hge, by simp⟩
  · have hcap : s.sp + 1 = s.cfg.CAP := by omega
    have hnone : s.resolve (s.sp + 1) = none := resolve_eq_none.2 (by omega)
    rw [← hcap]
    exact pops_invalidAddress (by omega) (.inl hnone)

/-! ## PUSH and then POP -/

/-- POP after PUSH copies the pushed value to its own destination (R187): its stack access is the one of PUSH, since
`SP - 1 + 1` is `SP`. -/
theorem execAll_push_pop {w' : Int} (hs : s.status = .running) (hlim : s.spLimit ≤ s.sp)
    (ht : s.resolve s.sp = some t) (hp : s.resolve w = some p) (hd : s.resolve w' = some d) :
    execAll [.push w, .pop w'] s = .next ((s.pushed t (s.cell p)).popped t d) := by
  have hcap : s.sp < s.cfg.CAP := (resolve_eq_some.1 ht).1.2
  have hpop : exec (.pop w') (s.pushed t (s.cell p)) = .next ((s.pushed t (s.cell p)).popped t d) :=
    execPop_some (by simp; omega) (by simpa using ht) (by simpa using hd)
  have hrun : (s.pushed t (s.cell p)).status = .running := by simpa using hs
  rw [execAll_cons hs (execPush_some hlim hp ht), execAll_cons hrun hpop, execAll]

/-- Settles O43: the destination takes what PUSH wrote at `t`, which is the source cell's value; every other cell but `t`
is as before. -/
theorem pushThenPopRoundTrip : Obligations.PushThenPopRoundTrip := by
  intro s w w' p d t hm hs hlim ht hp hd
  have hm' : (s.pushed t (s.cell p)).mem.wf := Memory.write_wf hm t (s.cell p)
  refine ⟨_, execAll_push_pop hs hlim ht hp hd, by simpa using hs, by simp, ?_, by simp; omega, fun q hqd hqt => ?_⟩
  · rw [popped_cell hm', if_pos rfl, pushed_cell hm, if_pos rfl]
  · rw [popped_cell hm', if_neg hqd, pushed_cell hm, if_neg hqt]

/-! ## Pushes until the stack is full -/

/-- As many pushes complete as there are addresses from `SP` down to `SP_LIMIT`, each taking one off `SP` (R183,
R188). -/
theorem execAll_replicate_push (n : Nat) : ∀ {s : State}, s.status = .running → s.resolve w = some p →
    s.spLimit + n ≤ s.sp + 1 → (∀ x : Int, s.spLimit ≤ x → x ≤ s.sp → (s.resolve x).isSome) →
    ∃ t : State, execAll (List.replicate n (.push w)) s = .next t ∧ t.status = .running ∧ t.sp = s.sp - n ∧
      t.spLimit = s.spLimit := by
  induction n with
  | zero => exact fun hs _ _ _ => ⟨_, rfl, hs, by simp, rfl⟩
  | succ n ih =>
    intro s hs hp hn hres
    have hlim : s.spLimit ≤ s.sp := by omega
    obtain ⟨d, hd⟩ := Option.isSome_iff_exists.1 (hres s.sp hlim le_rfl)
    have hsp' : (s.pushed d (s.cell p)).sp = s.sp - 1 := pushed_sp _
    have hlim' : (s.pushed d (s.cell p)).spLimit = s.spLimit := pushed_spLimit _
    obtain ⟨t, ht, hrun, hsp, hspLimit⟩ := ih (s := s.pushed d (s.cell p)) hs hp (by omega) fun x hx hxsp =>
      hres x hx (by omega)
    refine ⟨t, ?_, hrun, by omega, hspLimit⟩
    rw [List.replicate_succ, execAll_cons hs (execPush_some hlim hp hd), ht]

/-- Settles O44: after `SP - SP_LIMIT + 1` pushes `SP` is one below `SP_LIMIT`. -/
theorem pushesUntilOverflow : Obligations.PushesUntilOverflow := by
  intro s w p hs hlim hp hres
  obtain ⟨t, ht, hrun, hsp, hspLimit⟩ :=
    execAll_replicate_push (s.sp - s.spLimit + 1).toNat hs hp (by omega) hres
  exact ⟨t, ht, hrun, by omega, execPush_overflow (by omega)⟩

end Sys2Proof.Machine
end

section
/-! MODE and HALT, the commands the host issues outside a run, and the two statuses a run ends in (R190, R191, R209,
R234, R236, R240). -/

namespace Sys2Proof.Machine

variable {s : State}

/-! ## MODE and HALT -/

/-- MODE writes the scale factor and moves past its two words (R190). -/
theorem execMode_eq (k : Int) (s : State) : exec (.mode k) s = .next ((s.setMode k).advance 2) := rfl

/-- HALT writes the status alone (R191). -/
theorem execHalt_eq (s : State) : exec .halt s = .next (s.setStatus .halted) := rfl

/-- Settles O47, by the one equation of each instruction. -/
theorem modeAndHaltResults : Obligations.ModeAndHaltResults := fun s => ⟨fun k => execMode_eq k s, execHalt_eq s⟩

/-- After MODE the next words are fetched through the new scale factor, from two words further on (R240). -/
theorem resolve_after_mode (k : Int) (j : Nat) {p : Nat} :
    ((s.setMode k).advance 2).resolve (((s.setMode k).advance 2).pc + j) = some p ↔
      (0 ≤ s.pc + 2 + j ∧ s.pc + 2 + j < s.cfg.CAP) ∧ (p : Int) = k * (s.pc + 2 + j) ∧ p < s.cfg.CAP := by
  rw [resolve_eq_some, mul_comm k]
  rfl

/-- Settles O48: the fetch succeeds exactly where the rescaled address resolves, and reads the cell there. -/
theorem modeRescalesTheNextFetch : Obligations.ModeRescalesTheNextFetch := by
  intro s k j
  refine ⟨_, execMode_eq k s, fun x h0 hcap hx hxcap => ?_, fun hout => ?_⟩
  · exact fetch_eq_some.2 ⟨x, (resolve_after_mode k j).2 ⟨⟨h0, hcap⟩, hx, hxcap⟩, rfl⟩
  · rw [fetch_eq_none, Option.eq_none_iff_forall_ne_some]
    intro p hp
    obtain ⟨-, hpeq, hpcap⟩ := (resolve_after_mode k j).1 hp
    omega

/-! ## Host commands -/

/-- While the machine is Running every host command is refused (R236). -/
theorem command_running (hs : s.status = .running) (c : Command) : command c s = .refused .commandWhileRunning := by
  simp only [command, hs]

/-- In Faulted a host command has no effect (R209, R236). -/
theorem command_faulted {k : Fault} {p q : Int} (hs : s.status = .faulted k p q) (c : Command) :
    command c s = .next s := by
  simp only [command, hs]

/-- Settles O53: one case for each column of the table of R236. -/
theorem hostCommandsByStatus : Obligations.HostCommandsByStatus := fun _ c =>
  ⟨fun hs => command_running hs c, fun _ _ _ hs => command_faulted hs c, fun hs =>
    ⟨fun _ => command_accepted hs _, fun _ => command_accepted hs _, command_accepted hs _⟩⟩

/-- With no run active and no command pending a step leaves the state as it is. -/
theorem step_no_command (hs : s.status ≠ .running) (hc : s.commands = []) : step s = .next s := by
  rw [step_not_running hs, takeCommand]
  simp only [hc]

/-- With no run active a step takes the first pending command (R236). -/
theorem step_command {c : Command} {cs : List Command} (hs : s.status ≠ .running) (hc : s.commands = c :: cs) :
    step s = command c { s with commands := cs } := by
  rw [step_not_running hs, takeCommand]
  simp only [hc]

/-- Settles O17: the queue is empty, or has a first command. -/
theorem stepOutsideARunTakesOneCommand : Obligations.StepOutsideARunTakesOneCommand := fun _ hs =>
  ⟨step_no_command hs, fun _ _ => step_command hs⟩

/-! ## Faulted and Halted -/

/-- Settles O21, by induction on the number of steps: each drops one command and leaves the status Faulted. -/
theorem faultedIsFinal : Obligations.FaultedIsFinal := by
  intro n
  induction n with
  | zero => exact fun _ _ _ _ _ => rfl
  | succ n ih =>
    intro s k p q hs
    have hrest := ih { s with commands := s.commands.tail } k p q hs
    rw [List.drop_tail] at hrest
    exact runSteps_succ_eq_next.2 ⟨_, step_faulted hs, hrest⟩

/-- A `start` taken from the queue changes nothing that the fetch depends on. -/
theorem fetchInstr_started (s : State) (cs : List Command) :
    fetchInstr { s with commands := cs, status := .running } = fetchInstr s := fetchInstr_congr rfl rfl rfl rfl

/-- A running machine that fetches a HALT stops in one step with only the status written (R191). -/
theorem run_one_of_fetch_halt (hs : s.status = .running) (hf : fetchInstr s = .ok .halt) :
    run 1 s = .next (s.setStatus .halted) :=
  run_succ_running hs ((step_fetch_ok hs hf).trans (execHalt_eq s)) 0

/-- Settles O57: `start` writes the status alone, so the same HALT is fetched, and it writes the status back. -/
theorem restartAtTheHaltHaltsAtOnce : Obligations.RestartAtTheHaltHaltsAtOnce := by
  intro s cs hs hc hf
  have hstart : step s = .next { s with commands := cs, status := .running } :=
    (step_command (by simp [hs]) hc).trans (command_accepted (s := { s with commands := cs }) (.inr hs) .start)
  have hrun : run 1 { s with commands := cs, status := .running } = .next { s with commands := cs, status := .halted } :=
    run_one_of_fetch_halt rfl ((fetchInstr_started s cs).trans hf)
  refine ⟨hstart, ⟨rfl, _, hrun, rfl⟩, ?_⟩
  rw [hrun, ← hs]

end Sys2Proof.Machine
end
